-- ==== Sys2Proof/Word.lean ====
section
/-! DEFINITION. The two word types of the Machine: the 8-bit value of a memory cell, register, opcode or operand byte, and
the 9-bit program counter (00_scope.md R5, R7). Every value is unsigned (R7). -/

namespace Sys2Proof

/-- An 8-bit unsigned value: a memory cell, a register's contents, an opcode, an operand byte (R5, R7). -/
abbrev Byte := BitVec 8

/-- A value of the program counter: 9 bits, unsigned (R24). -/
abbrev Pc := BitVec 9

end Sys2Proof
end

