-- ==== Sys2Proof/Config.lean ====
section
/-! DEFINITION. The implementation parameters of 00_scope.md R5, at the values this hardware has. No value of this hardware
is left free by the spec, so nothing here is opaque. -/

namespace Sys2Proof.Config

/-- `MEM_SIZE`: cells 0 to 255 (R5, R30). -/
abbrev memSize : Nat := 256

/-- `NREG`: registers 0 to 7 (R5, R20). -/
abbrev nReg : Nat := 8

/-- `SP_INDEX`: the stack pointer is register 7 (R5, R21). -/
abbrev spIndex : Fin 8 := 7

/-- `SP_INIT`: the stack pointer after reset (R5, R34). `State.constructed` takes it as an argument (D21). -/
def spInit : Byte := 0xF4#8

/-- `PC_RESET`: the reset vector (R5, R211). -/
def pcReset : Pc := 0#9

/-- `LOAD_BASE`: where `load` puts its first byte (R5, R196). -/
def loadBase : Nat := 0

/-- `FETCH_WINDOW`: bytes fetched for every instruction (R5, R60). -/
abbrev fetchWindow : Nat := 3

/-- What a memory cell that nothing has written holds: 0 (R34, "`M[0]` to `M[255]` | 0"). -/
def memReset : Byte := 0#8

end Sys2Proof.Config
end

