-- ==== Sys2Proof/Syntax.lean ====
section
/-! DEFINITION. The nine instructions of 30_encoding.md R64, one constructor per row of the opcode table. A register operand
is kept as the whole operand byte, because a byte of 8 to 255 is an instruction that raises, not a decoding failure (R22,
R63). An operand byte that the instruction does not use is not part of it (R66). -/

namespace Sys2Proof

/-- The instruction set: `a` and `b` are the operand bytes of the fetch window (R61, R65). -/
inductive Instr where
  /-- HLT: halt (R100). -/
  | hlt
  /-- LDI: write the immediate `b` to register `a` (R101). -/
  | ldi (a b : Byte)
  /-- PRN: hand register `a` to the output sink (R102). -/
  | prn (a : Byte)
  /-- MUL: register `a` times register `b`, into `a` (R123). -/
  | mul (a b : Byte)
  /-- ADD: register `a` plus register `b`, into `a` (R124). -/
  | add (a b : Byte)
  /-- PUSH: store register `a` on the stack (R141). -/
  | push (a : Byte)
  /-- POP: load register `a` from the stack (R142). -/
  | pop (a : Byte)
  /-- CALL: push the return address, jump to the address in register `a` (R160). -/
  | call (a : Byte)
  /-- RET: pop the return address into `pc` (R161). -/
  | ret
  deriving DecidableEq, Repr

end Sys2Proof
end

