-- ==== Sys2Proof/WellFormed.lean ====
section
/-! DEFINITION. Which instructions an assembler can write: every register operand they use is `R0` to `R7` (30_encoding.md
R63, R71). An ill-formed instruction still decodes and runs: it raises RegisterIndexOutOfRange (R184), operand `a` before
operand `b` (R185). -/

namespace Sys2Proof

/-- Does an operand byte name a register of the file (R22)? -/
def isRegister (b : Byte) : Bool := decide (b.toNat < Config.nReg)

/-- The operand bytes an instruction uses as register indices, in the order they are checked (R65, R185). -/
def Instr.registerOperands : Instr → List Byte
  | .hlt => []
  | .ldi a _ => [a]
  | .prn a => [a]
  | .mul a b => [a, b]
  | .add a b => [a, b]
  | .push a => [a]
  | .pop a => [a]
  | .call a => [a]
  | .ret => []

/-- The first register operand that names no register, if any: the `info` of the fault the instruction raises (R184, R185). -/
def Instr.badRegister (i : Instr) : Option Byte := i.registerOperands.find? (fun b => !isRegister b)

/-- Every register operand names a register of the file (R63, R71). -/
def Instr.wellFormed (i : Instr) : Bool := i.registerOperands.all isRegister

end Sys2Proof
end

