-- ==== Sys2Proof/Decode.lean ====
section
/-! DEFINITION. The fetch window, the dispatch table and the decoder (30_encoding.md, 40_execution_loop.md), then the encoder
and the program image. Decoding is total on any window and rejects an opcode of no instruction by name (R67). -/

namespace Sys2Proof

/-- The fetch window: the three bytes at `pc`, `pc+1`, `pc+2` (R31, R60). -/
structure Window where
  op : Byte
  a  : Byte
  b  : Byte
  deriving DecidableEq, Repr

/-- What the decoder answers for a window. -/
inductive Decoded where
  /-- The opcode selects this instruction (R64). -/
  | instr (i : Instr)
  /-- The opcode byte is neither HLT nor a Dispatch Table entry (R67, R182). -/
  | illegal (op : Byte)
  deriving DecidableEq, Repr

/-- The opcode the execution loop tests for before it dispatches (R82). -/
def hltOpcode : Byte := 0b00000001#8

/-- The Dispatch Table: one entry per opcode but HLT, each the handler that receives both operand bytes (R35, R64, R83). -/
def dispatchTable : List (Byte × (Byte → Byte → Instr)) :=
  [(0b10000010#8, fun a b => .ldi a b),
   (0b01000111#8, fun a _ => .prn a),
   (0b10100010#8, fun a b => .mul a b),
   (0b10100000#8, fun a b => .add a b),
   (0b01000101#8, fun a _ => .push a),
   (0b01000110#8, fun a _ => .pop a),
   (0b01010000#8, fun a _ => .call a),
   (0b00010001#8, fun _ _ => .ret)]

/-- Exact match of all 8 bits of the opcode: HLT first, then the Dispatch Table, else illegal (R64, R80, R82, R83). -/
def decode (w : Window) : Decoded :=
  if w.op = hltOpcode then .instr .hlt
  else
    match dispatchTable.lookup w.op with
    | some handler => .instr (handler w.a w.b)
    | none => .illegal w.op

/-- The opcode byte of an instruction, from the opcode map (R64). -/
def Instr.opcode : Instr → Byte
  | .hlt => 0x01#8
  | .ldi _ _ => 0x82#8
  | .prn _ => 0x47#8
  | .mul _ _ => 0xA2#8
  | .add _ _ => 0xA0#8
  | .push _ => 0x45#8
  | .pop _ => 0x46#8
  | .call _ => 0x50#8
  | .ret => 0x11#8

/-- The operand bytes an instruction uses, in ascending address order (R65). -/
def Instr.operandBytes : Instr → List Byte
  | .hlt => []
  | .ldi a b => [a, b]
  | .prn a => [a]
  | .mul a b => [a, b]
  | .add a b => [a, b]
  | .push a => [a]
  | .pop a => [a]
  | .call a => [a]
  | .ret => []

/-- The architectural length: the opcode and the operand bytes the instruction uses (R61, R64). -/
def Instr.length (i : Instr) : Nat := 1 + i.operandBytes.length

/-- The bytes an instruction occupies in a program image: its opcode, then the operand bytes it uses (R65, R70). -/
def encode (i : Instr) : List Byte := i.opcode :: i.operandBytes

/-- A program image: the encodings one after the other (R70). -/
def encodeProgram (is : List Instr) : List Byte := is.flatMap encode

/-- The first three bytes of a byte list as a window, with the reset contents of memory (0, R34) where the list is shorter. -/
def Window.ofBytes (bytes : List Byte) : Window :=
  ⟨bytes.getD 0 Config.memReset, bytes.getD 1 Config.memReset, bytes.getD 2 Config.memReset⟩

/-- The window whose packed word `W = (b, a, op)` is the low `nbits` bits of `w`, the rest 0 (R60). -/
def Window.ofTableWord (nbits w : Nat) : Window :=
  let v := w % 2 ^ nbits
  ⟨BitVec.ofNat 8 v, BitVec.ofNat 8 (v / 2 ^ 8), BitVec.ofNat 8 (v / 2 ^ 16)⟩

/-- The instruction the decoder reads from an opcode-table word (R60). -/
def decodeTableWord (nbits w : Nat) : Option Instr :=
  match decode (Window.ofTableWord nbits w) with
  | .instr i => some i
  | .illegal _ => none

end Sys2Proof
end

