-- ==== Sys2Proof/Machine/State.lean ====
section
/-! DEFINITION. The whole architectural state of the Machine (10_state.md), its reset value, and the reasons a step can have
no next state. A fault of the spec's R180 is NOT one of these reasons: it is a next state whose run state is Faulted (R186,
log 1). -/

namespace Sys2Proof.Machine

/-- The kinds of fault the Machine raises (60_exceptions.md R180). -/
inductive FaultKind where
  /-- A memory access at an address above 255: the fetch window or the load port (R181, R196). -/
  | memOutOfBounds
  /-- An opcode byte that is neither HLT nor a Dispatch Table entry (R182). -/
  | illegalInstruction
  /-- An ALU select outside ADD and MUL; no program can raise it (R183). -/
  | unsupportedAluOp
  /-- A used register operand byte of 8 to 255 (R184). -/
  | registerIndexOutOfRange
  deriving DecidableEq, Repr

/-- The run state, the only status the Machine has (R28). -/
inductive RunState where
  /-- Constructed or reset, not yet started; the host may load. -/
  | idle
  /-- The engine is executing instructions. -/
  | running
  /-- HLT was executed; left by reset only. -/
  | halted
  /-- A fatal error occurred; left by reset only. It keeps the kind, the info and the address of the faulting instruction's
  opcode (R180, R186). -/
  | faulted (kind : FaultKind) (info : Nat) (faultPc : Pc)
  deriving DecidableEq, Repr

/-- Memory: the cells that do not hold their reset contents, as (address, byte) pairs (R30, R40). -/
abbrev Memory := List Host.Cell

/-- The canonical form of memory: addresses strictly rising and below 256, and no listed cell equal to what an unlisted
address reads as. Equal memories are then equal lists. -/
abbrev Memory.wf (m : Memory) : Prop :=
  m.Pairwise (fun c d => c.1 < d.1) ∧ ∀ c ∈ m, c.1 < Config.memSize ∧ c.2 ≠ Config.memReset

/-- The architectural state (10_state.md: "Nothing else is state"), and the host's record of the output events. -/
structure State where
  /-- The register file `x[0]` to `x[7]`; `x[7]` is the stack pointer (R20, R21). -/
  x   : Vector Byte 8
  /-- The program counter (R24). -/
  pc  : Pc
  /-- The memory `M` (R30). -/
  mem : Memory
  /-- The run state (R28). -/
  run : RunState
  /-- The output events of the current run, that is since the last reset, oldest first: the model's record of what the host's
  sink received, no state of the Machine (R32, R88, R191; log 4). -/
  out : List Byte
  deriving DecidableEq, Repr

/-- The constructed (reset) Machine, for any `SP_INIT` (R34, R210, D21). -/
def State.constructed (spInit : Byte) : State where
  x := #v[0#8, 0#8, 0#8, 0#8, 0#8, 0#8, 0#8, spInit]
  pc := Config.pcReset
  mem := []
  run := .idle
  out := []

/-- The Machine right after reset, `SP_INIT` being 0xF4 (R34, R210). -/
def State.reset : State := State.constructed Config.spInit

/-- Why a step has no next state. Raised by `step` only, never by an instruction: the engine "takes no step" outside Running
(R80, R86). All three are safe: nothing can be proved of a state that does not exist. -/
inductive Fault where
  /-- `step` in Idle: the host has not given `run` (R195). Safe. -/
  | notStarted
  /-- `step` in Halted, which is final until reset (R86). Safe. -/
  | alreadyHalted
  /-- `step` in Faulted, which is final until reset (R86, R187). Safe. -/
  | alreadyFaulted
  deriving DecidableEq, Repr

/-- Why an instruction has no meaning here. No arm of `exec` answers with it: every instruction is modelled. Safe. -/
inductive Refusal where
  /-- An instruction of the table that the model does not give a meaning yet. Safe. -/
  | notModelled (mnemonic : String)
  deriving DecidableEq, Repr

end Sys2Proof.Machine
end

