-- ==== Sys2Proof/Machine/Ops.lean ====
section
/-! DEFINITION. The pseudocode primitives of 00_scope.md R8 over the state: memory, registers, stack pointer, program counter,
output, halt, and raising a fault with its one entry operation (60_exceptions.md R186). There is no return from a fault to
stand beside it (R187): only the host's reset leaves Faulted (Machine/HostPort.lean). -/

namespace Sys2Proof.Machine

/-- Cut an exact result to 8 bits: `mod 256` of the pseudocode (R7, R23). -/
def narrow (n : Nat) : Byte := BitVec.ofNat 8 n

/-- `zext_9`: widen an 8-bit value to a program counter value (R7). -/
def zextPc (b : Byte) : Pc := b.setWidth 9

/-! ### Memory as plain data -/

/-- The byte a memory holds at an address: its listed byte, else the reset contents (R34). -/
def Memory.read : Memory → Nat → Byte
  | [], _ => Config.memReset
  | c :: m, addr => if c.1 = addr then c.2 else Memory.read m addr

/-- A memory without its cell at an address. -/
def Memory.erase (m : Memory) (addr : Nat) : Memory := m.filter (fun c => decide (c.1 ≠ addr))

/-- List a cell before the first cell of a higher address. -/
def Memory.insert (addr : Nat) (v : Byte) : Memory → Memory
  | [] => [(addr, v)]
  | c :: m => if addr < c.1 then (addr, v) :: c :: m else c :: Memory.insert addr v m

/-- The memory after a cell is given a byte; a cell that holds its reset contents again is no longer listed. -/
def Memory.write (m : Memory) (addr : Nat) (v : Byte) : Memory :=
  if v = Config.memReset then m.erase addr else Memory.insert addr v (m.erase addr)

/-! ### Reading and updating the state -/

/-- `M[addr]` as state, not as an access (R8). -/
def State.cell (s : State) (addr : Nat) : Byte := Memory.read s.mem addr

/-- `x[i]` as state (R8, R20). -/
def State.reg (s : State) (i : Fin 8) : Byte := s.x[i.val]

/-- `sp`: shorthand for `x[7]` (R8, R21). -/
def State.sp (s : State) : Byte := s.reg Config.spIndex

/-- The one write of a cell. -/
def State.setCell (s : State) (addr : Nat) (v : Byte) : State := { s with mem := Memory.write s.mem addr v }

/-- The one write of a register; `x[7]` is written as any other (R20, R21). -/
def State.setReg (s : State) (i : Fin 8) (v : Byte) : State := { s with x := s.x.set i.val v }

/-- `pc <- t` (R8). -/
def State.setPc (s : State) (t : Pc) : State := { s with pc := t }

/-- `pc <- pc + n`: the handler's own advance by its instruction's width (R25, R84). -/
def State.advancePc (s : State) (n : Nat) : State := s.setPc (s.pc + BitVec.ofNat 9 n)

/-- Change the run state (R28). -/
def State.setRun (s : State) (r : RunState) : State := { s with run := r }

/-- `emit(v)`: one output event, at once, after every earlier one (R8, R191). -/
def State.emit (s : State) (v : Byte) : State := { s with out := s.out ++ [v] }

/-- `halt`: the run state becomes Halted and nothing else changes (R8, R100). -/
def State.halt (s : State) : State := s.setRun .halted

/-! ### Stack-pointer logic (43_stack.md R140) -/

/-- `sp <- (sp - 1) mod 256`, used first by PUSH and CALL (R140). -/
def State.spDecrement (s : State) : State := s.setReg Config.spIndex (s.sp - 1#8)

/-- `sp <- (sp + 1) mod 256`, used last by POP and RET (R140). -/
def State.spIncrement (s : State) : State := s.setReg Config.spIndex (s.sp + 1#8)

/-! ### Raising a fault -/

/-- What `raise E(info)` carries (R8, R180). -/
structure Raise where
  kind : FaultKind
  info : Nat
  deriving DecidableEq, Repr

/-- A piece of pseudocode run on a working copy: its result, or the fault that abandons it (R10). -/
abbrev Attempt (α : Type) := Except Raise α

/-- The code of a fault kind; 0 stands for no fault (R180). -/
def FaultKind.code : FaultKind → Nat
  | .memOutOfBounds => 1
  | .illegalInstruction => 2
  | .unsupportedAluOp => 3
  | .registerIndexOutOfRange => 4

/-- Fault entry: the state before the instruction, with the run state Faulted(kind, info, fault_pc) and `fault_pc` the address
of the faulting instruction's opcode (R186). -/
def State.enterFault (s : State) (e : Raise) : State := s.setRun (.faulted e.kind e.info s.pc)

/-- The end of an instruction: its working copy becomes the state, or it is discarded and the fault is entered from the state
as it was before (R10, R186). -/
def commit (s : State) (r : Attempt State) : Host.Outcome State Fault Refusal :=
  match r with
  | .ok t => .next t
  | .error e => .next (s.enterFault e)

/-! ### Memory accesses (20_memory.md) -/

/-- `MemRead(addr, 1)` (R41). -/
def memRead (addr : Nat) (s : State) : Attempt Byte :=
  if addr < Config.memSize then .ok (s.cell addr) else .error ⟨.memOutOfBounds, addr⟩

/-- `MemWrite(addr, 1, v)` (R42). -/
def memWrite (addr : Nat) (v : Byte) (s : State) : Attempt State :=
  if addr < Config.memSize then .ok (s.setCell addr v) else .error ⟨.memOutOfBounds, addr⟩

/-! ### When the engine steps at all -/

/-- The reason the engine takes no step, if it takes none: it steps only in Running (R80, R86). -/
def stopReason : RunState → Option Fault
  | .idle => some .notStarted
  | .running => none
  | .halted => some .alreadyHalted
  | .faulted _ _ _ => some .alreadyFaulted

end Sys2Proof.Machine
end

