-- ==== Sys2Proof/Machine/Operands.lean ====
section
/-! DEFINITION. The operand forms (30_encoding.md R61 to R66): a register operand is a whole operand byte used as an index
(R22, R63); an immediate is the operand byte as it stands (R62), so it needs no operation; an unused byte is never looked
at (R66). -/

namespace Sys2Proof.Machine

/-- Resolve a register operand: 0 to 7 select a register, 8 to 255 raise with the operand byte as info (R22, R63, R184). -/
def regIndex (operand : Byte) : Attempt (Fin 8) :=
  if h : operand.toNat < 8 then .ok ⟨operand.toNat, h⟩ else .error ⟨.registerIndexOutOfRange, operand.toNat⟩

/-- `x[i]` with `i` an operand byte (R8). -/
def readReg (operand : Byte) (s : State) : Attempt Byte := do
  let i ← regIndex operand
  return s.reg i

/-- `x[i] <- v` with `i` an operand byte (R8). -/
def writeReg (operand : Byte) (v : Byte) (s : State) : Attempt State := do
  let i ← regIndex operand
  return s.setReg i v

end Sys2Proof.Machine
end

