-- ==== Sys2Proof/Machine/Alu.lean ====
section
/-! DEFINITION. The ALU and the two instructions that drive it (42_alu.md). -/

namespace Sys2Proof.Machine

/-- The ALU's operation select: ADD, MUL, or a value outside them, which no handler drives (R121, R122). The number of an
outside select is the model's stand-in for its representation, which is not architectural (D18, log 8). -/
inductive AluSelect where
  | add
  | mul
  | other (select : Nat)
  deriving DecidableEq, Repr

/-- The exact result of an ALU operation on two unsigned bytes, cut to 8 bits (R120, R125); none for a select the ALU does
not have (R122, R126). -/
def AluSelect.result : AluSelect → Byte → Byte → Attempt Byte
  | .add, u, v => .ok (narrow (u.toNat + v.toNat))
  | .mul, u, v => .ok (narrow (u.toNat * v.toNat))
  | .other select, _, _ => .error ⟨.unsupportedAluOp, select⟩

/-- `ALU(op, d, s)`: read `x[d]`, then `x[s]`, compute, write `x[d]` and nothing else (R120). -/
def alu (select : AluSelect) (d src : Byte) (s : State) : Attempt State := do
  let u ← readReg d s
  let v ← readReg src s
  let r ← select.result u v
  writeReg d r s

/-- The pseudocode of MUL (R123). -/
def mul (a b : Byte) (s : State) : Attempt State := do
  let s ← alu .mul a b s
  return s.advancePc 3

/-- The pseudocode of ADD: the sum, never the product (R124, C6). -/
def add (a b : Byte) (s : State) : Attempt State := do
  let s ← alu .add a b s
  return s.advancePc 3

/-- MUL (R123). -/
def execMul (a b : Byte) (s : State) : Host.Outcome State Fault Refusal := commit s (mul a b s)

/-- ADD (R124). -/
def execAdd (a b : Byte) (s : State) : Host.Outcome State Fault Refusal := commit s (add a b s)

end Sys2Proof.Machine
end

