-- ==== Sys2Proof/Machine/CallReturn.lean ====
section
/-! DEFINITION. CALL and RET (44_call_return.md), the two instructions that set `pc` directly (R164). -/

namespace Sys2Proof.Machine

/-- The return address CALL stores: the byte after its operand byte (R160, R162). -/
def returnAddress (s : State) : Byte := narrow (s.pc.toNat + 2)

/-- The pseudocode of CALL: `x[a]` is read after the decrement (R160). -/
def call (a : Byte) (s : State) : Attempt State := do
  let s := s.spDecrement
  let s ← memWrite s.sp.toNat (returnAddress s) s
  let target ← readReg a s
  return s.setPc (zextPc target)

/-- The pseudocode of RET (R161). -/
def ret (s : State) : Attempt State := do
  let v ← memRead s.sp.toNat s
  let s := s.setPc (zextPc v)
  return s.spIncrement

/-- CALL (R160). -/
def execCall (a : Byte) (s : State) : Host.Outcome State Fault Refusal := commit s (call a s)

/-- RET (R161). -/
def execRet (s : State) : Host.Outcome State Fault Refusal := commit s (ret s)

end Sys2Proof.Machine
end

