-- ==== Sys2Proof/Machine/ControlData.lean ====
section
/-! DEFINITION. HLT, LDI and PRN (41_control_and_data.md). -/

namespace Sys2Proof.Machine

/-- The pseudocode of LDI (R101). -/
def ldi (a b : Byte) (s : State) : Attempt State := do
  let s ← writeReg a b s
  return s.advancePc 3

/-- The pseudocode of PRN (R102). -/
def prn (a : Byte) (s : State) : Attempt State := do
  let v ← readReg a s
  return (s.emit v).advancePc 2

/-- HLT: the run state becomes Halted; `pc` keeps the address of the HLT byte (R100). -/
def execHlt (s : State) : Host.Outcome State Fault Refusal := commit s (.ok s.halt)

/-- LDI (R101). -/
def execLdi (a b : Byte) (s : State) : Host.Outcome State Fault Refusal := commit s (ldi a b s)

/-- PRN (R102). -/
def execPrn (a : Byte) (s : State) : Host.Outcome State Fault Refusal := commit s (prn a s)

end Sys2Proof.Machine
end

