-- ==== Sys2Proof/Machine/Stack.lean ====
section
/-! DEFINITION. PUSH and POP (43_stack.md), each statement of the pseudocode seeing the ones before it (00_scope.md R9), so
that R7 as the named operand behaves as D14 says. -/

namespace Sys2Proof.Machine

/-- The pseudocode of PUSH: `x[a]` is read after the decrement (R141). -/
def push (a : Byte) (s : State) : Attempt State := do
  let s := s.spDecrement
  let v ← readReg a s
  let s ← memWrite s.sp.toNat v s
  return s.advancePc 2

/-- The pseudocode of POP: the increment reads `x[7]` as the load left it (R142). -/
def pop (a : Byte) (s : State) : Attempt State := do
  let v ← memRead s.sp.toNat s
  let s ← writeReg a v s
  return s.spIncrement.advancePc 2

/-- PUSH (R141). -/
def execPush (a : Byte) (s : State) : Host.Outcome State Fault Refusal := commit s (push a s)

/-- POP (R142). -/
def execPop (a : Byte) (s : State) : Host.Outcome State Fault Refusal := commit s (pop a s)

end Sys2Proof.Machine
end

