-- ==== Sys2Proof/Machine/Fetch.lean ====
section
/-! DEFINITION. The fetch of the three-byte window and its decoding (40_execution_loop.md R80 to R83), and the placing of a
window in memory that `withFetchWord` uses. -/

namespace Sys2Proof.Machine

/-- Read the window at `pc`, `pc+1`, `pc+2`, in that order and always all three; the sums are exact (R80, R81). -/
def fetchWindow (s : State) : Attempt Window := do
  let op ← memRead s.pc.toNat s
  let a ← memRead (s.pc.toNat + 1) s
  let b ← memRead (s.pc.toNat + 2) s
  return ⟨op, a, b⟩

/-- Decode a window, an illegal opcode raising with the opcode byte as info (R67, R182). -/
def decodeOrRaise (w : Window) : Attempt Instr :=
  match decode w with
  | .instr i => .ok i
  | .illegal op => .error ⟨.illegalInstruction, op.toNat⟩

/-- The instruction at `pc`: the whole window is fetched before its opcode is looked at (R81, R82, R185). -/
def fetchDecode (s : State) : Attempt Instr := do
  let w ← fetchWindow s
  decodeOrRaise w

/-- Store a byte where memory has a cell for it. -/
def State.placeByte (s : State) (addr : Nat) (v : Byte) : State :=
  if addr < Config.memSize then s.setCell addr v else s

/-- Store a window where the next fetch reads it. -/
def State.placeWindow (s : State) (w : Window) : State :=
  ((s.placeByte s.pc.toNat w.op).placeByte (s.pc.toNat + 1) w.a).placeByte (s.pc.toNat + 2) w.b

end Sys2Proof.Machine
end

