-- ==== Sys2Proof/Machine/Step.lean ====
section
/-! DEFINITION. One step of the engine (40_execution_loop.md R80), and the placing of an instruction for the host's checks. -/

namespace Sys2Proof.Machine

/-- One step: nothing outside Running; in Running, fetch the window, then raise, halt or dispatch (R80, R86). A fault of the
instruction is a next state whose run state is Faulted (R186). -/
def step (s : State) : Host.Outcome State Fault Refusal :=
  match stopReason s.run with
  | some reason => .fault reason
  | none =>
    match fetchDecode s with
    | .error e => .next (s.enterFault e)
    | .ok i => exec i s

/-- `s` with the instruction of an opcode-table word stored at `pc` and the run state Running, as `load` and `run` would leave
it (R195, R196, R213), so that the next step runs that instruction. With `pc` above 253 no window fits in memory (R81), and
the bytes that fall outside are dropped (log 3). -/
def State.withFetchWord (s : State) (nbits w : Nat) : State :=
  (s.placeWindow (Window.ofTableWord nbits w)).setRun .running

end Sys2Proof.Machine
end

