-- ==== Sys2Proof/Machine/Assembly.lean ====
section
/-! DEFINITION. The assembler syntax of 30_encoding.md R71, over lists of characters: a mnemonic, then the operands separated
by a comma with optional spaces; registers `R0` to `R7`; immediates decimal, `0x` hexadecimal or `0b` binary, 0 to 255. There
are no pseudo-instructions and no labels (R72). Where R71 leaves the letter case and the blanks open, log 9 says what is read. -/

namespace Sys2Proof.Machine

/-- The value of a digit character in a base up to 16. -/
def digitValue (base : Nat) (c : Char) : Option Nat :=
  let n := c.toNat
  let v := if 48 ≤ n ∧ n ≤ 57 then n - 48
    else if 97 ≤ n ∧ n ≤ 102 then n - 87
    else if 65 ≤ n ∧ n ≤ 70 then n - 55
    else base
  if v < base then some v else none

/-- The value of a run of digits after those already read; every character must be a digit. -/
def digitsValue (base : Nat) : Nat → List Char → Option Nat
  | acc, [] => some acc
  | acc, c :: cs =>
    match digitValue base c with
    | some d => digitsValue base (acc * base + d) cs
    | none => none

/-- A number of at least one digit. -/
def parseNumber (base : Nat) : List Char → Option Nat
  | [] => none
  | c :: cs => digitsValue base 0 (c :: cs)

/-- An immediate: decimal, `0x` hexadecimal or `0b` binary, in 0 to 255 (R71). -/
def parseImmediate (cs : List Char) : Option Byte :=
  let n :=
    match cs with
    | '0' :: 'x' :: ds => parseNumber 16 ds
    | '0' :: 'b' :: ds => parseNumber 2 ds
    | ds => parseNumber 10 ds
  match n with
  | some v => if v < 256 then some (BitVec.ofNat 8 v) else none
  | none => none

/-- A register operand: `R` and a decimal index 0 to 7 (R71). -/
def parseRegister : List Char → Option Byte
  | 'R' :: ds =>
    match parseNumber 10 ds with
    | some v => if v < Config.nReg then some (BitVec.ofNat 8 v) else none
    | none => none
  | _ => none

/-- Drop the blanks at both ends. -/
def trimSpaces (cs : List Char) : List Char :=
  ((cs.dropWhile (· == ' ')).reverse.dropWhile (· == ' ')).reverse

/-- The operands: what stands between the commas, blanks dropped; none for an empty text. -/
def splitOperands (cs : List Char) : List (List Char) :=
  let cs := trimSpaces cs
  if cs.isEmpty then [] else (cs.splitOn ',').map trimSpaces

/-- An instruction of one register operand. -/
def oneRegister (make : Byte → Instr) : List (List Char) → Option Instr
  | [r] => (parseRegister r).map make
  | _ => none

/-- An instruction of two register operands. -/
def twoRegisters (make : Byte → Byte → Instr) : List (List Char) → Option Instr
  | [d, r] => (parseRegister d).bind fun a => (parseRegister r).map fun b => make a b
  | _ => none

/-- An instruction of a register operand and an immediate. -/
def registerImmediate (make : Byte → Byte → Instr) : List (List Char) → Option Instr
  | [d, v] => (parseRegister d).bind fun a => (parseImmediate v).map fun b => make a b
  | _ => none

/-- An instruction of no operands. -/
def noOperands (i : Instr) : List (List Char) → Option Instr
  | [] => some i
  | _ => none

/-- The form of each mnemonic (R71). -/
def parseForm : List Char → List (List Char) → Option Instr
  | ['H', 'L', 'T'] => noOperands .hlt
  | ['R', 'E', 'T'] => noOperands .ret
  | ['P', 'R', 'N'] => oneRegister .prn
  | ['P', 'U', 'S', 'H'] => oneRegister .push
  | ['P', 'O', 'P'] => oneRegister .pop
  | ['C', 'A', 'L', 'L'] => oneRegister .call
  | ['L', 'D', 'I'] => registerImmediate .ldi
  | ['A', 'D', 'D'] => twoRegisters .add
  | ['M', 'U', 'L'] => twoRegisters .mul
  | _ => fun _ => none

/-- Read one line of assembler text (R71). -/
def parseInstr (cs : List Char) : Option Instr :=
  let cs := trimSpaces cs
  parseForm (cs.takeWhile (· != ' ')) (splitOperands (cs.dropWhile (· != ' ')))

/-- The bytes one line of assembler text stands for (R64, R65, R71). -/
def assemble (cs : List Char) : Option (List Byte) := (parseInstr cs).map encode

/-- The decimal digits of a number below 1000. -/
def decimal (n : Nat) : List Char :=
  let digit (d : Nat) : Char := Char.ofNat (48 + d % 10)
  if n < 10 then [digit n]
  else if n < 100 then [digit (n / 10), digit n]
  else [digit (n / 100), digit (n / 10), digit n]

/-- A register operand as text. -/
def showRegister (b : Byte) : List Char := 'R' :: decimal b.toNat

/-- An instruction as text, immediates decimal, in the form of the source's examples (`LDI R0,8`, R71). -/
def showInstr : Instr → List Char
  | .hlt => ['H', 'L', 'T']
  | .ret => ['R', 'E', 'T']
  | .prn a => ['P', 'R', 'N', ' '] ++ showRegister a
  | .push a => ['P', 'U', 'S', 'H', ' '] ++ showRegister a
  | .pop a => ['P', 'O', 'P', ' '] ++ showRegister a
  | .call a => ['C', 'A', 'L', 'L', ' '] ++ showRegister a
  | .ldi a b => ['L', 'D', 'I', ' '] ++ showRegister a ++ [','] ++ decimal b.toNat
  | .add a b => ['A', 'D', 'D', ' '] ++ showRegister a ++ [','] ++ showRegister b
  | .mul a b => ['M', 'U', 'L', ' '] ++ showRegister a ++ [','] ++ showRegister b

end Sys2Proof.Machine
end

