-- ==== Sys2Proof/Machine/HostPort.lean ====
section
/-! DEFINITION. The host interface (60_exceptions.md R195 to R197, 70_reset_and_hazards.md R210, R213): the transactions that
change the Machine, the two read-only ports, and a whole run with what it yields (40_execution_loop.md R88). -/

namespace Sys2Proof.Machine

/-- `reset`: the constructed Machine, from any run state; nothing survives it (R195, R210). The record of output events
starts anew with it, so that it holds the events of one run: those of earlier runs are the sink's alone (R32, R88, log 4). -/
def hostReset (_ : State) : State := State.reset

/-- `MemWrite` each byte in order from an address on; the first write that raises faults the Machine with the writes before
it done (R196, log 5). -/
def loadFrom : Nat → List Byte → State → State
  | _, [], s => s
  | addr, b :: bs, s =>
    match memWrite addr b s with
    | .ok t => loadFrom (addr + 1) bs t
    | .error e => s.enterFault e

/-- `load(bytes)`: accepted in Idle only, always from `LOAD_BASE` (R195, R196). -/
def hostLoad (bytes : List Byte) (s : State) : State :=
  if s.run = .idle then loadFrom Config.loadBase bytes s else s

/-- `run`: accepted in Idle only; the engine steps from then on (R195). -/
def hostRun (s : State) : State := if s.run = .idle then s.setRun .running else s

/-- The host's transactions that can change the Machine (R195). -/
inductive Transaction where
  | reset
  | load (bytes : List Byte)
  | run
  deriving DecidableEq, Repr

/-- The effect of a transaction (R195). -/
def transact : Transaction → State → State
  | .reset, s => hostReset s
  | .load bytes, s => hostLoad bytes s
  | .run, s => hostRun s

/-- The host's boot order: reset, load the program, run (R213). -/
def boot (bytes : List Byte) (s : State) : State := hostRun (hostLoad bytes (hostReset s))

/-- What the trace port returns: `pc`, the next three memory bytes and the eight registers (R197). -/
structure TraceSnapshot where
  pc   : Pc
  op   : Option Byte
  a    : Option Byte
  b    : Option Byte
  regs : Vector Byte 8
  deriving DecidableEq, Repr

/-- A memory byte as the trace port shows it: absent above address 255, never a fault (R197). -/
def traceByte (s : State) (addr : Nat) : Option Byte :=
  if addr < Config.memSize then some (s.cell addr) else none

/-- The trace port (R197). -/
def hostTrace (s : State) : TraceSnapshot :=
  ⟨s.pc, traceByte s s.pc.toNat, traceByte s (s.pc.toNat + 1), traceByte s (s.pc.toNat + 2), s.x⟩

/-- The run states as the status outputs name them (R28, R195). -/
inductive Phase where
  | idle
  | running
  | halted
  | faulted
  deriving DecidableEq, Repr

/-- The status outputs: the run state, and for Faulted its code, info and `fault_pc`; code 0 means no fault (R180, R195). -/
structure Status where
  phase   : Phase
  code    : Nat
  info    : Option Nat
  faultPc : Option Pc
  deriving DecidableEq, Repr

/-- The status port (R195). -/
def hostStatus (s : State) : Status :=
  match s.run with
  | .idle => ⟨.idle, 0, none, none⟩
  | .running => ⟨.running, 0, none, none⟩
  | .halted => ⟨.halted, 0, none, none⟩
  | .faulted kind info faultPc => ⟨.faulted, kind.code, some info, some faultPc⟩

/-- Has the run come to its end (R88)? -/
def State.ended (s : State) : Bool :=
  match s.run with
  | .idle => false
  | .running => false
  | .halted => true
  | .faulted _ _ _ => true

/-- Let the engine step, at most `n` times, until it takes no step (R80, R85, R195). The fuel is the model's: the loop itself
has no iteration limit (R85). -/
def runFor : Nat → State → State
  | 0, s => s
  | n + 1, s =>
    match step s with
    | .next t => runFor n t
    | .fault _ => s
    | .refused _ => s

/-- What a run that has ended yields: its own output events, in order, the final run state, and for Halted the registers, `pc` and memory
(R88). A Faulted run yields no registers or memory: claims must not read them (U1). -/
structure Yield where
  events : List Byte
  run    : RunState
  final  : Option (Vector Byte 8 × Pc × Memory)
  deriving DecidableEq, Repr

/-- The yield of a run at its end; none before its end. A run starts in Idle, which only reset enters (R28, R195), so the record
`out` is then that run's own sequence of events (R88, log 4). -/
def State.yield (s : State) : Option Yield :=
  match s.run with
  | .idle => none
  | .running => none
  | .halted => some ⟨s.out, s.run, some (s.x, s.pc, s.mem)⟩
  | .faulted _ _ _ => some ⟨s.out, s.run, none⟩

end Sys2Proof.Machine
end

