-- ==== Sys2Proof/Safety.lean ====
section
/-! DEFINITION. The terms claims are stated in: the invariant of the reachable states, what two states share (frames), and
what a run without a fault is. -/

namespace Sys2Proof.Machine

/-- Has a fatal error ended the run (R28, R186)? -/
def State.isFaulted (s : State) : Bool :=
  match s.run with
  | .idle => false
  | .running => false
  | .halted => false
  | .faulted _ _ _ => true

/-- The info values each fault kind can have in a reachable state (R180, R183): the failing address is always 256, the opcode
is illegal, the register operand is 8 to 255, and no select is ever unsupported. -/
def FaultKind.legalInfo : FaultKind → Nat → Prop
  | .memOutOfBounds, info => info = 256
  | .illegalInstruction, info => ∃ w : Window, info = w.op.toNat ∧ decode w = .illegal w.op
  | .unsupportedAluOp, _ => False
  | .registerIndexOutOfRange, info => 8 ≤ info ∧ info ≤ 255

/-- A Faulted run state keeps a legal info and the address the Machine stopped at (R180, R186). -/
def State.runLegal (s : State) : Prop :=
  match s.run with
  | .idle => True
  | .running => True
  | .halted => True
  | .faulted kind info faultPc => kind.legalInfo info ∧ faultPc = s.pc

/-- The invariant of the reachable states: memory in its canonical form, `pc` at most 256 (R26), a legal run state (R180), and
no output event before `run` (R191, R195), so that the record of a run starts empty (R88, log 4). -/
structure State.Inv (s : State) : Prop where
  memory : Memory.wf s.mem
  pcBound : s.pc.toNat ≤ 256
  runLegal : s.runLegal
  idleSilent : s.run = .idle → s.out = []

/-- The operand byte names this register (R22, R63). -/
abbrev Names (operand : Byte) (r : Fin 8) : Prop := operand.toNat = r.val

/-- The window at `pc` lies in memory and holds these bytes (R60, R81). -/
structure State.WindowIs (s : State) (w : Window) : Prop where
  inMemory : s.pc.toNat + 2 ≤ 255
  op : s.cell s.pc.toNat = w.op
  a : s.cell (s.pc.toNat + 1) = w.a
  b : s.cell (s.pc.toNat + 2) = w.b

/-- Every register but the listed ones holds what it held before. -/
def SameRegsExcept (s t : State) (written : List (Fin 8)) : Prop := ∀ r, r ∉ written → t.reg r = s.reg r

/-- Every cell of memory but the listed addresses holds what it held before. -/
def SameMemExcept (s t : State) (written : List Nat) : Prop := ∀ addr, addr ∉ written → t.cell addr = s.cell addr

/-- The outcome is the fault of this kind and info taken from `s`: the same state but for the run state, which is Faulted at
the address of the instruction (R186). -/
def TakesFault (s : State) (o : Host.Outcome State Fault Refusal) (kind : FaultKind) (info : Nat) : Prop :=
  ∃ t, o = .next t ∧ t.run = .faulted kind info s.pc ∧
    t.pc = s.pc ∧ t.x = s.x ∧ t.mem = s.mem ∧ t.out = s.out

/-- The output events the next step delivers, read off the state before it: the register's value if the instruction at `pc` is
PRN with a register of the file, and none otherwise (R102, R191). -/
def stepEvents (s : State) : List Byte :=
  match fetchDecode s with
  | .ok (.prn a) =>
    match readReg a s with
    | .ok v => [v]
    | .error _ => []
  | _ => []

/-- The output events of a run of at most `n` steps, in program order (R88, R191). -/
def runEvents : Nat → State → List Byte
  | 0, _ => []
  | n + 1, s =>
    match step s with
    | .next t => stepEvents s ++ runEvents n t
    | .fault _ => []
    | .refused _ => []

/-- A safe run of `n` steps: no fault within them. -/
def RunsSafely (n : Nat) (s : State) : Prop := (runFor n s).isFaulted = false

/-- What a running instruction needs to complete without a fault: its window lies in memory, its opcode is one of the nine,
and each register operand it uses is 0 to 7 (R217). -/
def State.CanComplete (s : State) : Prop :=
  ∃ w i, s.WindowIs w ∧ decode w = .instr i ∧ i.wellFormed = true

end Sys2Proof.Machine
end

