-- ==== Sys2Proof/Certificates/Slice0/Obligations.lean ====
section
/-! DEFINITION. The statements for the provers, from the numbered rules of spec/. Each docstring names the rule it formalises;
"D<n>" and "log <n>" in a docstring mark a clause that is the spec's own decision (92_eei_decisions.md) or the model's. -/

open Sys2Proof Sys2Proof.Machine

/-! ### Reset and the host's transactions -/

/-- R34, R210: after reset, from any state, every register but `x[7]` is 0, `x[7]` is 0xF4, `pc` is 0, every cell is 0 and the
run state is Idle; the constructed Machine is the same, for any `SP_INIT` in `x[7]`. A `reset` usable in any run state is
decision D11, `SP_INIT` as an argument D21. -/
def Obligations.ResetGivesConstructionState : Prop :=
  (∀ s t : State, (t = State.reset ∨ t = transact .reset s) →
    (∀ r : Fin 8, r ≠ 7 → t.reg r = 0x00#8) ∧ t.reg 7 = 0xF4#8 ∧ t.pc.toNat = 0 ∧
    (∀ addr, t.cell addr = 0x00#8) ∧ t.run = .idle) ∧
  (∀ spInit : Byte, (State.constructed spInit).sp = spInit ∧
    State.constructed spInit = State.reset.setReg 7 spInit)

/-- R196: a `load` in Idle of at most 256 bytes writes them from address 0 up and changes no other cell, no register and not
`pc`; a longer one ends in Faulted(MemOutOfBounds, 256, pc), after which `run` has no effect. The load port's fault is decision
D8, its acceptance in Idle only D22. What a longer load leaves in memory is not claimed (log 5). -/
def Obligations.LoadWritesProgramFromAddressZero : Prop :=
  ∀ (s : State) (bytes : List Byte), s.run = .idle →
    (bytes.length ≤ 256 →
      (∀ (i : Nat) (h : i < bytes.length), (transact (.load bytes) s).cell i = bytes[i]) ∧
      (∀ addr, bytes.length ≤ addr → (transact (.load bytes) s).cell addr = s.cell addr) ∧
      (transact (.load bytes) s).x = s.x ∧ (transact (.load bytes) s).pc = s.pc ∧
      (transact (.load bytes) s).run = .idle ∧ (transact (.load bytes) s).out = s.out) ∧
    (256 < bytes.length →
      (transact (.load bytes) s).run = .faulted .memOutOfBounds 256 s.pc ∧
      (transact (.load bytes) s).x = s.x ∧ (transact (.load bytes) s).pc = s.pc ∧
      (transact (.load bytes) s).out = s.out ∧
      transact .run (transact (.load bytes) s) = transact (.load bytes) s)

/-- R195: `run` is accepted in Idle only, where it makes the run state Running and changes nothing else; `load` outside Idle
is refused with no effect; `reset` is accepted in any run state. The acceptance column is decisions D10, D11 and D22. -/
def Obligations.TransactionsAreAcceptedByRunState : Prop :=
  ∀ s : State,
    (s.run = .idle → (transact .run s).run = .running ∧ (transact .run s).x = s.x ∧ (transact .run s).pc = s.pc ∧
      (transact .run s).mem = s.mem ∧ (transact .run s).out = s.out) ∧
    (s.run ≠ .idle → transact .run s = s ∧ ∀ bytes, transact (.load bytes) s = s) ∧
    (transact .reset s).run = .idle

/-- R211: after reset, `load` and `run`, `pc` is 0, the run state is Running, and the first fetch window is the first three
bytes of the program, with the zeros of memory after a shorter one (R34). -/
def Obligations.BootFetchesFirstWindowAtResetVector : Prop :=
  ∀ (s : State) (bytes : List Byte), bytes.length ≤ 256 →
    (boot bytes s).pc = 0#9 ∧ (boot bytes s).run = .running ∧
    fetchWindow (boot bytes s) = .ok ⟨bytes.getD 0 0x00#8, bytes.getD 1 0x00#8, bytes.getD 2 0x00#8⟩

/-- R214 (the spec's inference): a `run` without a `load` stops at once with Faulted(IllegalInstruction, 0x00, 0); after a
`load` of more than 256 bytes the Machine is Faulted(MemOutOfBounds, 256, 0) and `run` leaves the whole state as it is. That
an overlong load faults is decision D8, that `run` is then refused D10. -/
def Obligations.RunWithoutProgramStopsAtOnce : Prop :=
  ∀ s : State,
    TakesFault (transact .run (transact .reset s)) (step (transact .run (transact .reset s))) .illegalInstruction 0 ∧
    (transact .run (transact .reset s)).pc = 0#9 ∧
    ∀ bytes : List Byte, 256 < bytes.length →
      (transact (.load bytes) (transact .reset s)).run = .faulted .memOutOfBounds 256 0#9 ∧
      transact .run (transact (.load bytes) (transact .reset s)) = transact (.load bytes) (transact .reset s) ∧
      (boot bytes s).run = .faulted .memOutOfBounds 256 0#9

/-- R86, R187, R193: in Halted and in Faulted the engine takes no step, no transaction but `reset` has an effect, and `reset`
leaves them. That both are final is decision D10; that a step not taken answers a named stop is log 2. -/
def Obligations.HaltedAndFaultedAreFinalUntilReset : Prop :=
  ∀ s : State, s.ended = true →
    (s.run = .halted → step s = .fault .alreadyHalted) ∧
    (s.run ≠ .halted → step s = .fault .alreadyFaulted) ∧
    (∀ tr : Transaction, tr ≠ .reset → transact tr s = s) ∧
    (transact .reset s).ended = false

/-- R197 (decision D9): the trace port shows `pc`, the bytes at `pc`, `pc+1` and `pc+2` where such a cell exists and absent
otherwise, and all eight registers. -/
def Obligations.TraceShowsNextBytesOrAbsent : Prop :=
  ∀ s : State,
    (hostTrace s).pc = s.pc ∧ (∀ r : Fin 8, (hostTrace s).regs[r.val] = s.reg r) ∧
    (s.pc.toNat ≤ 255 → (hostTrace s).op = some (s.cell s.pc.toNat)) ∧
    (255 < s.pc.toNat → (hostTrace s).op = none) ∧
    (s.pc.toNat ≤ 254 → (hostTrace s).a = some (s.cell (s.pc.toNat + 1))) ∧
    (254 < s.pc.toNat → (hostTrace s).a = none) ∧
    (s.pc.toNat ≤ 253 → (hostTrace s).b = some (s.cell (s.pc.toNat + 2))) ∧
    (253 < s.pc.toNat → (hostTrace s).b = none)

/-- R195, R180 (decision D4): the status outputs give the run state; their code is 0 without a fault, and in Faulted it is 1 to
4 by kind, with the info and `fault_pc`. -/
def Obligations.StatusReportsRunStateAndFaultCode : Prop :=
  (∀ s : State,
    (s.run = .idle → hostStatus s = ⟨.idle, 0, none, none⟩) ∧
    (s.run = .running → hostStatus s = ⟨.running, 0, none, none⟩) ∧
    (s.run = .halted → hostStatus s = ⟨.halted, 0, none, none⟩)) ∧
  (∀ (s : State) (kind : FaultKind) (info : Nat) (faultPc : Pc), s.run = .faulted kind info faultPc →
    ∃ code, hostStatus s = ⟨.faulted, code, some info, some faultPc⟩ ∧
      (kind = .memOutOfBounds → code = 1) ∧ (kind = .illegalInstruction → code = 2) ∧
      (kind = .unsupportedAluOp → code = 3) ∧ (kind = .registerIndexOutOfRange → code = 4))

/-! ### Encoding -/

/-- R64: the opcode map, by exact match, complete: each of the nine opcodes decodes to its instruction whatever the operand
bytes, every other opcode is illegal, each instruction occupies its format's bytes, and the Dispatch Table has the eight
entries other than HLT. -/
def Obligations.DispatchDecodesExactlyTheNineOpcodes : Prop :=
  (∀ a b : Byte,
    decode ⟨0b00000001#8, a, b⟩ = .instr .hlt ∧ decode ⟨0b10000010#8, a, b⟩ = .instr (.ldi a b) ∧
    decode ⟨0b01000111#8, a, b⟩ = .instr (.prn a) ∧ decode ⟨0b10100010#8, a, b⟩ = .instr (.mul a b) ∧
    decode ⟨0b10100000#8, a, b⟩ = .instr (.add a b) ∧ decode ⟨0b01000101#8, a, b⟩ = .instr (.push a) ∧
    decode ⟨0b01000110#8, a, b⟩ = .instr (.pop a) ∧ decode ⟨0b01010000#8, a, b⟩ = .instr (.call a) ∧
    decode ⟨0b00010001#8, a, b⟩ = .instr .ret) ∧
  (∀ w : Window, w.op ∉ [0x01#8, 0x82#8, 0x47#8, 0xA2#8, 0xA0#8, 0x45#8, 0x46#8, 0x50#8, 0x11#8] →
    decode w = .illegal w.op) ∧
  (∀ a b : Byte,
    encode .hlt = [0x01#8] ∧ encode (.ldi a b) = [0x82#8, a, b] ∧ encode (.prn a) = [0x47#8, a] ∧
    encode (.mul a b) = [0xA2#8, a, b] ∧ encode (.add a b) = [0xA0#8, a, b] ∧ encode (.push a) = [0x45#8, a] ∧
    encode (.pop a) = [0x46#8, a] ∧ encode (.call a) = [0x50#8, a] ∧ encode .ret = [0x11#8]) ∧
  dispatchTable.length = 8 ∧ (dispatchTable.lookup 0x01#8).isNone = true

/-- R67: the illegal opcodes are the 247 values of the rule's list and no other; a Running Machine whose window holds one
raises IllegalInstruction with that opcode and changes nothing else; 0x00, which every cell holds that nothing has written since
reset, is one of them. -/
def Obligations.IllegalOpcodesAreThe247OfTheList : Prop :=
  (∀ w : Window, decode w = .illegal w.op ↔
    (w.op.toNat = 0x00 ∨ (0x02 ≤ w.op.toNat ∧ w.op.toNat ≤ 0x10) ∨ (0x12 ≤ w.op.toNat ∧ w.op.toNat ≤ 0x44) ∨
      (0x48 ≤ w.op.toNat ∧ w.op.toNat ≤ 0x4F) ∨ (0x51 ≤ w.op.toNat ∧ w.op.toNat ≤ 0x81) ∨
      (0x83 ≤ w.op.toNat ∧ w.op.toNat ≤ 0x9F) ∨ w.op.toNat = 0xA1 ∨ 0xA3 ≤ w.op.toNat)) ∧
  ((List.range 256).filter (fun n => decide (decode ⟨BitVec.ofNat 8 n, 0#8, 0#8⟩ = .illegal (BitVec.ofNat 8 n)))).length
    = 247 ∧
  (∀ (s : State) (w : Window), s.run = .running → s.WindowIs w → decode w = .illegal w.op →
    TakesFault s (step s) .illegalInstruction w.op.toNat) ∧
  (∀ addr, State.reset.cell addr = 0x00#8) ∧
  (∀ s : State, s.run = .running → s.pc.toNat + 2 ≤ 255 → s.cell s.pc.toNat = 0x00#8 →
    TakesFault s (step s) .illegalInstruction 0x00)

/-- R60, R64, R65: words of the nine instructions, written out as `W = (b, a, op)`, decode to the instructions they stand
for, and two words of no instruction to none. -/
def Obligations.SampleWordsDecodeToTheirInstructions : Prop :=
  decodeTableWord 24 0b111111111111111100000001 = some .hlt ∧
  decodeTableWord 24 0b000010000000000010000010 = some (.ldi 0#8 8#8) ∧
  decodeTableWord 16 0b0000010101000111 = some (.prn 5#8) ∧
  decodeTableWord 24 0b000000010000000010100010 = some (.mul 0#8 1#8) ∧
  decodeTableWord 24 0b000000110000001010100000 = some (.add 2#8 3#8) ∧
  decodeTableWord 16 0b0000010001000101 = some (.push 4#8) ∧
  decodeTableWord 16 0b0000011101000110 = some (.pop 7#8) ∧
  decodeTableWord 16 0b0000000101010000 = some (.call 1#8) ∧
  decodeTableWord 8 0b00010001 = some .ret ∧
  decodeTableWord 24 0b000000000000000000000000 = none ∧
  decodeTableWord 24 0b000000000000000010100001 = none

/-- R61, R65, R66: an instruction's encoding, followed by any bytes, decodes to that instruction; and a window that decodes to
an instruction begins with the instruction's encoding. -/
def Obligations.EncodeAndDecodeAgree : Prop :=
  (∀ (i : Instr) (rest : List Byte), decode (Window.ofBytes (encode i ++ rest)) = .instr i) ∧
  (∀ (w : Window) (i : Instr), decode w = .instr i → encode i = [w.op, w.a, w.b].take i.length)

/-- R69 (the spec's inference): opcode bits 7 and 6 count the operand bytes, bit 5 marks ADD and MUL, bit 4 marks CALL and RET;
yet 0xA1, which fits the pattern, is illegal. -/
def Obligations.OpcodeBitsCountOperandsAndMarkClasses : Prop :=
  (∀ i : Instr, (i.opcode >>> 6).toNat = i.length - 1 ∧
    (i.opcode.getLsbD 5 = true ↔ ∃ a b, i = .add a b ∨ i = .mul a b) ∧
    (i.opcode.getLsbD 4 = true ↔ i = .ret ∨ ∃ a, i = .call a)) ∧
  (∀ a b : Byte, decode ⟨0xA1#8, a, b⟩ = .illegal 0xA1#8)

/-- R65, R70, R196: a program image loaded after reset reads back as its instructions. For every list of instructions whose
image fits in memory, at the address where each one's bytes begin, a Machine with `pc` there fetches and decodes exactly that
instruction, wherever its whole window lies in memory (R81). -/
def Obligations.LoadedImageDecodesToItsInstructions : Prop :=
  ∀ (s : State) (before after : List Instr) (i : Instr),
    (encodeProgram (before ++ i :: after)).length ≤ 256 →
    (encodeProgram before).length + 2 ≤ 255 →
    fetchDecode ((boot (encodeProgram (before ++ i :: after)) s).setPc
      (BitVec.ofNat 9 (encodeProgram before).length)) = .ok i

/-- R71 (decision D23): the assembler reads the text of every instruction whose register operands are `R0` to `R7` as that
instruction. The text form is log 9. -/
def Obligations.AssemblerReadsBackWrittenInstructions : Prop :=
  ∀ i : Instr, i.wellFormed = true →
    parseInstr (showInstr i) = some i ∧ assemble (showInstr i) = some (encode i)

/-! ### One step: fetch, dispatch, faults -/

/-- R83: when the window at `pc` decodes to an instruction, a step of a Running Machine is that instruction's handler on that
state, and nothing more; an opcode with no entry that is not HLT raises IllegalInstruction with no register, memory, `pc` or
output change. -/
def Obligations.StepRunsTheDecodedInstruction : Prop :=
  ∀ (s : State) (w : Window), s.run = .running → s.WindowIs w →
    (∀ i, decode w = .instr i → step s = exec i s) ∧
    (decode w = .illegal w.op → TakesFault s (step s) .illegalInstruction w.op.toNat)

/-- R81, R26 (the failing address is the spec's inference): for every `pc` of 0 to 256, a step raises MemOutOfBounds with info
256 when `pc` is at least 254, whatever memory holds, and otherwise the fetch reads the three bytes at `pc`, `pc+1`, `pc+2`. -/
def Obligations.FetchFaultsExactlyAboveAddress253 : Prop :=
  ∀ s : State, s.run = .running → s.pc.toNat ≤ 256 →
    (254 ≤ s.pc.toNat → TakesFault s (step s) .memOutOfBounds 256) ∧
    (s.pc.toNat ≤ 253 →
      fetchWindow s = .ok ⟨s.cell s.pc.toNat, s.cell (s.pc.toNat + 1), s.cell (s.pc.toNat + 2)⟩)

/-- R82: the HLT test comes after the whole window is fetched: HLT at 253 or below halts, HLT at 254 or 255 raises
MemOutOfBounds(256) instead. -/
def Obligations.HaltNeedsItsWholeWindowInMemory : Prop :=
  ∀ s : State, s.run = .running → s.cell s.pc.toNat = 0x01#8 →
    (s.pc.toNat ≤ 253 → ∃ t, step s = .next t ∧ t.run = .halted ∧ t.pc = s.pc) ∧
    ((s.pc.toNat = 254 ∨ s.pc.toNat = 255) → TakesFault s (step s) .memOutOfBounds 256)

/-- R184, R22, R185 (decisions D1, D12): at the level of the instruction, a used register operand of 8 to 255 raises
RegisterIndexOutOfRange with that byte, operand `a` before operand `b`, and changes nothing else; every instruction whose used
register operands are 0 to 7 completes, its run state as before or Halted by HLT. -/
def Obligations.BadRegisterOperandRaisesElseCompletes : Prop :=
  (∀ (s : State) (a b : Byte), 8 ≤ a.toNat →
    TakesFault s (exec (.ldi a b) s) .registerIndexOutOfRange a.toNat ∧
    TakesFault s (exec (.prn a) s) .registerIndexOutOfRange a.toNat ∧
    TakesFault s (exec (.mul a b) s) .registerIndexOutOfRange a.toNat ∧
    TakesFault s (exec (.add a b) s) .registerIndexOutOfRange a.toNat ∧
    TakesFault s (exec (.push a) s) .registerIndexOutOfRange a.toNat ∧
    TakesFault s (exec (.pop a) s) .registerIndexOutOfRange a.toNat ∧
    TakesFault s (exec (.call a) s) .registerIndexOutOfRange a.toNat) ∧
  (∀ (s : State) (a b : Byte), a.toNat ≤ 7 → 8 ≤ b.toNat →
    TakesFault s (exec (.mul a b) s) .registerIndexOutOfRange b.toNat ∧
    TakesFault s (exec (.add a b) s) .registerIndexOutOfRange b.toNat) ∧
  (∀ (s : State) (i : Instr), i.wellFormed = true →
    ∃ t, exec i s = .next t ∧ ((i = .hlt ∧ t.run = .halted) ∨ (i ≠ .hlt ∧ t.run = s.run)))

/-- R185 (decision D12): where several conditions hold, the first is the one raised: the fetch at the lowest failing address
whatever memory holds; then HLT, no fault, whatever its operand bytes; then an illegal opcode whatever its operand bytes; then
operand `a`, then operand `b`; and last the ALU select. That a register operand above 7 is a fault is decision D1; the select
outside ADD and MUL is no encoding of the spec (D18), and the number that stands for it, its fault's info, is log 8 (DESIGN
CHOICE). -/
def Obligations.FirstFaultInPriorityOrderIsRaised : Prop :=
  (∀ s : State, s.run = .running → 254 ≤ s.pc.toNat → s.pc.toNat ≤ 256 →
    TakesFault s (step s) .memOutOfBounds 256) ∧
  (∀ (s : State) (a b : Byte), s.run = .running → s.WindowIs ⟨0x01#8, a, b⟩ →
    ∃ t, step s = .next t ∧ t.run = .halted) ∧
  (∀ (s : State) (w : Window), s.run = .running → s.WindowIs w →
    w.op ∉ [0x01#8, 0x82#8, 0x47#8, 0xA2#8, 0xA0#8, 0x45#8, 0x46#8, 0x50#8, 0x11#8] →
    TakesFault s (step s) .illegalInstruction w.op.toNat) ∧
  (∀ (s : State) (w : Window), s.run = .running → s.WindowIs w →
    w.op ∈ [0x82#8, 0x47#8, 0xA2#8, 0xA0#8, 0x45#8, 0x46#8, 0x50#8] → 8 ≤ w.a.toNat →
    TakesFault s (step s) .registerIndexOutOfRange w.a.toNat) ∧
  (∀ (s : State) (w : Window), s.run = .running → s.WindowIs w → w.op ∈ [0xA2#8, 0xA0#8] → w.a.toNat ≤ 7 →
    8 ≤ w.b.toNat → TakesFault s (step s) .registerIndexOutOfRange w.b.toNat) ∧
  (∀ (s : State) (n : Nat) (a b : Byte),
    (8 ≤ a.toNat → alu (.other n) a b s = .error ⟨.registerIndexOutOfRange, a.toNat⟩) ∧
    (a.toNat ≤ 7 → 8 ≤ b.toNat → alu (.other n) a b s = .error ⟨.registerIndexOutOfRange, b.toNat⟩) ∧
    (a.toNat ≤ 7 → b.toNat ≤ 7 → alu (.other n) a b s = .error ⟨.unsupportedAluOp, n⟩))

/-- R186 (decisions D4, D5): a step that ends in Faulted commits nothing of its instruction: the next state is the old one but
for the run state, and `fault_pc` is the address of the instruction's opcode. -/
def Obligations.FaultsCommitNothingOfTheInstruction : Prop :=
  ∀ (s t : State) (kind : FaultKind) (info : Nat) (faultPc : Pc),
    step s = .next t → t.run = .faulted kind info faultPc →
    faultPc = s.pc ∧ t.x = s.x ∧ t.pc = s.pc ∧ t.mem = s.mem ∧ t.out = s.out

/-- R86 (decisions D4, D10), R85: a Running Machine always has a next step; it becomes Halted exactly when its window holds
HLT, and otherwise is Running or Faulted; a step is taken in Running only. -/
def Obligations.RunningStepsHaltExactlyOnHlt : Prop :=
  (∀ s : State, s.run = .running → ∃ t, step s = .next t ∧
    (t.run = .running ∨ t.run = .halted ∨ ∃ kind info, t.run = .faulted kind info s.pc) ∧
    (t.run = .halted ↔ (s.pc.toNat + 2 ≤ 255 ∧ s.cell s.pc.toNat = 0x01#8))) ∧
  (∀ s t : State, step s = .next t → s.run = .running)

/-- R217 (the spec's inference): a step of a Running Machine ends without a fault exactly when the window lies in memory, its
opcode is one of the nine, and the register operands it uses are 0 to 7. -/
def Obligations.StepCompletesExactlyWhenProgramIsLegal : Prop :=
  ∀ s : State, s.run = .running → ((∃ t, step s = .next t ∧ t.isFaulted = false) ↔ s.CanComplete)

/-- R48, R181 (R48 is the spec's inference): with `pc` at most 256, a step raises MemOutOfBounds exactly when the fetch window
leaves memory, so no stack access ever does; and a stack access itself never raises. -/
def Obligations.OnlyTheFetchCanLeaveMemory : Prop :=
  (∀ s : State, s.run = .running → s.pc.toNat ≤ 256 →
    ((∃ t info faultPc, step s = .next t ∧ t.run = .faulted .memOutOfBounds info faultPc) ↔ 254 ≤ s.pc.toNat)) ∧
  (∀ (s : State) (v : Byte), memRead s.sp.toNat s = .ok (s.cell s.sp.toNat) ∧
    ∃ t, memWrite s.spDecrement.sp.toNat v s.spDecrement = .ok t)

/-- R122, R183: a select outside ADD and MUL raises UnsupportedAluOp, which ends the run when committed; and no step of any
Machine raises it. The number that stands for the select is log 8. -/
def Obligations.UnsupportedAluSelectRaisesAndIsUnreachable : Prop :=
  (∀ (s : State) (n : Nat) (a b : Byte) (d r : Fin 8), Names a d → Names b r →
    TakesFault s (commit s (alu (.other n) a b s)) .unsupportedAluOp n) ∧
  (∀ (s t : State) (info : Nat) (faultPc : Pc), step s = .next t → t.run ≠ .faulted .unsupportedAluOp info faultPc)

/-! ### The instructions -/

/-- R100: HLT, one byte 0x01 whatever follows it and no entry of the Dispatch Table, makes the run state Halted and changes no
register, memory cell, output or `pc`; after it the engine takes no step; at 254 or 255 it never executes. -/
def Obligations.HltHaltsAndChangesNothingElse : Prop :=
  (∀ a b : Byte, decode ⟨0x01#8, a, b⟩ = .instr .hlt) ∧ encode .hlt = [0x01#8] ∧
  (dispatchTable.lookup 0x01#8).isNone = true ∧
  (∀ s : State, ∃ t, exec .hlt s = .next t ∧ t.run = .halted ∧ t.pc = s.pc ∧ SameRegsExcept s t [] ∧
    SameMemExcept s t [] ∧ t.out = s.out ∧ ∀ u, step t ≠ .next u) ∧
  (∀ s : State, s.run = .running → (s.pc.toNat = 254 ∨ s.pc.toNat = 255) → s.cell s.pc.toNat = 0x01#8 →
    TakesFault s (step s) .memOutOfBounds 256)

/-- R101: LDI with operand `a` naming a register writes `b` to it unchanged and advances `pc` by 3; nothing else changes. Its
only hypothesis beyond the operand is that the window lies in memory (R26). An operand of 8 to 255 is
BadRegisterOperandRaisesElseCompletes. -/
def Obligations.LdiWritesImmediateToRegister : Prop :=
  ∀ (s : State) (a b : Byte) (d : Fin 8), Names a d → s.pc.toNat + 2 ≤ 255 →
    ∃ t, exec (.ldi a b) s = .next t ∧ t.reg d = b ∧ t.pc.toNat = s.pc.toNat + 3 ∧ SameRegsExcept s t [d] ∧
      SameMemExcept s t [] ∧ t.out = s.out ∧ t.run = s.run

/-- R102, R191 (decision D7): PRN delivers one output event carrying the register's value, after every earlier event, and
advances `pc` by 2; nothing else changes. The event list is the host's record (log 4). -/
def Obligations.PrnDeliversOneEvent : Prop :=
  ∀ (s : State) (a : Byte) (r : Fin 8), Names a r → s.pc.toNat + 2 ≤ 255 →
    ∃ t, exec (.prn a) s = .next t ∧ t.out = s.out ++ [s.reg r] ∧ t.pc.toNat = s.pc.toNat + 2 ∧ SameRegsExcept s t [] ∧
      SameMemExcept s t [] ∧ t.run = s.run

/-- R123, R125: MUL leaves the product of the two registers modulo 256 in the first and advances `pc` by 3; nothing else
changes, and with one register named twice it is squared. -/
def Obligations.MulKeepsLowByteOfProduct : Prop :=
  ∀ (s : State) (a b : Byte) (d r : Fin 8), Names a d → Names b r → s.pc.toNat + 2 ≤ 255 →
    ∃ t, exec (.mul a b) s = .next t ∧ (t.reg d).toNat = ((s.reg d).toNat * (s.reg r).toNat) % 256 ∧
      t.pc.toNat = s.pc.toNat + 3 ∧ SameRegsExcept s t [d] ∧ SameMemExcept s t [] ∧ t.out = s.out ∧ t.run = s.run

/-- R124, R125: ADD leaves the sum of the two registers modulo 256 in the first and advances `pc` by 3; nothing else changes,
and with one register named twice it is doubled. -/
def Obligations.AddKeepsLowByteOfSum : Prop :=
  ∀ (s : State) (a b : Byte) (d r : Fin 8), Names a d → Names b r → s.pc.toNat + 2 ≤ 255 →
    ∃ t, exec (.add a b) s = .next t ∧ (t.reg d).toNat = ((s.reg d).toNat + (s.reg r).toNat) % 256 ∧
      t.pc.toNat = s.pc.toNat + 3 ∧ SameRegsExcept s t [d] ∧ SameMemExcept s t [] ∧ t.out = s.out ∧ t.run = s.run

/-- R141 (modulo 256 is decision D2, PUSH R7 is D14): PUSH decrements SP, then writes the register at the new SP; PUSH R7
writes the decremented SP. Nothing else changes; the address is the model's own `spDecrement`, whose number is stated. -/
def Obligations.PushStoresBelowTheStackTop : Prop :=
  ∀ (s : State) (a : Byte) (r : Fin 8), Names a r → s.pc.toNat + 2 ≤ 255 →
    s.spDecrement.sp.toNat = (s.sp.toNat + 255) % 256 ∧
    ∃ t, exec (.push a) s = .next t ∧ t.sp = s.spDecrement.sp ∧
      t.cell s.spDecrement.sp.toNat = (if r = 7 then s.spDecrement.sp else s.reg r) ∧
      t.pc.toNat = s.pc.toNat + 2 ∧ SameRegsExcept s t [7] ∧ SameMemExcept s t [s.spDecrement.sp.toNat] ∧
      t.out = s.out ∧ t.run = s.run

/-- R142 (modulo 256 is decision D2, POP R7 is D14): POP writes the byte at SP to the register, then increments SP; POP R7
leaves that byte plus one. Memory is not changed, and no register but the two. -/
def Obligations.PopLoadsFromTheStackTop : Prop :=
  ∀ (s : State) (a : Byte) (r : Fin 8), Names a r → s.pc.toNat + 2 ≤ 255 →
    ∃ t, exec (.pop a) s = .next t ∧
      (r ≠ 7 → t.reg r = s.cell s.sp.toNat ∧ t.sp.toNat = (s.sp.toNat + 1) % 256) ∧
      (r = 7 → t.sp.toNat = ((s.cell s.sp.toNat).toNat + 1) % 256) ∧
      t.pc.toNat = s.pc.toNat + 2 ∧ SameRegsExcept s t [r, 7] ∧ SameMemExcept s t [] ∧ t.out = s.out ∧ t.run = s.run

/-- R160, R162 (modulo 256 is decision D2, CALL R7 is D14): CALL decrements SP, writes `pc + 2` at the new SP, then sets `pc`
to the register's value, for R7 the decremented SP. Nothing else changes; the stored return address is exact. -/
def Obligations.CallPushesReturnAddressAndJumps : Prop :=
  ∀ (s : State) (a : Byte) (r : Fin 8), Names a r → s.pc.toNat + 2 ≤ 255 →
    s.spDecrement.sp.toNat = (s.sp.toNat + 255) % 256 ∧
    ∃ t, exec (.call a) s = .next t ∧ t.sp = s.spDecrement.sp ∧
      (t.cell s.spDecrement.sp.toNat).toNat = s.pc.toNat + 2 ∧
      t.pc.toNat = (if r = 7 then s.spDecrement.sp.toNat else (s.reg r).toNat) ∧ SameRegsExcept s t [7] ∧
      SameMemExcept s t [s.spDecrement.sp.toNat] ∧ t.out = s.out ∧ t.run = s.run

/-- R161: RET, one byte 0x11 whatever follows it, sets `pc` to the byte at SP and then increments SP modulo 256; it raises
nothing of its own, clears no cell and changes nothing else; a byte of 254 or 255 makes the next fetch fault. -/
def Obligations.RetPopsTheReturnAddress : Prop :=
  (∀ a b : Byte, decode ⟨0x11#8, a, b⟩ = .instr .ret) ∧ encode .ret = [0x11#8] ∧
  parseInstr ['R', 'E', 'T'] = some .ret ∧
  (∀ s : State, ∃ t, exec .ret s = .next t ∧ t.pc.toNat = (s.cell s.sp.toNat).toNat ∧
    t.sp.toNat = (s.sp.toNat + 1) % 256 ∧ SameRegsExcept s t [7] ∧ SameMemExcept s t [] ∧ t.out = s.out ∧
    t.run = s.run ∧
    (254 ≤ (s.cell s.sp.toNat).toNat → s.run = .running → TakesFault t (step t) .memOutOfBounds 256))

/-- R120 (decisions D1, D12): the ALU reads both registers, the destination's index checked first, writes the result to the
destination and changes nothing else, `pc` included. -/
def Obligations.AluWritesItsDestinationOnly : Prop :=
  (∀ (s : State) (a b : Byte) (d r : Fin 8), Names a d → Names b r →
    (∃ t, alu .add a b s = .ok t ∧ (t.reg d).toNat = ((s.reg d).toNat + (s.reg r).toNat) % 256 ∧
      SameRegsExcept s t [d] ∧ t.pc = s.pc ∧ t.mem = s.mem ∧ t.run = s.run ∧ t.out = s.out) ∧
    (∃ t, alu .mul a b s = .ok t ∧ (t.reg d).toNat = ((s.reg d).toNat * (s.reg r).toNat) % 256 ∧
      SameRegsExcept s t [d] ∧ t.pc = s.pc ∧ t.mem = s.mem ∧ t.run = s.run ∧ t.out = s.out)) ∧
  (∀ (s : State) (sel : AluSelect) (a b : Byte),
    (8 ≤ a.toNat → alu sel a b s = .error ⟨.registerIndexOutOfRange, a.toNat⟩) ∧
    (a.toNat ≤ 7 → 8 ≤ b.toNat → alu sel a b s = .error ⟨.registerIndexOutOfRange, b.toNat⟩))

/-- R125 (the signedness remark is the spec's inference): a sum or product is the same bit pattern whether the operands are
read as unsigned or as two's-complement bytes. -/
def Obligations.ArithmeticIgnoresSign : Prop :=
  ∀ u v : Byte,
    AluSelect.add.result u v = .ok (BitVec.ofInt 8 (u.toInt + v.toInt)) ∧
    AluSelect.mul.result u v = .ok (BitVec.ofInt 8 (u.toInt * v.toInt))

/-- R140, R49 (modulo 256 is decision D2): the two stack-pointer operations move `x[7]` by one modulo 256, touching nothing
else: no other register, not memory, `pc`, the run state or the output record; the first push after reset has address 0xF3. -/
def Obligations.StackPointerMovesByOneModulo256 : Prop :=
  (∀ s : State,
    s.spDecrement.sp.toNat = (s.sp.toNat + 255) % 256 ∧ SameRegsExcept s s.spDecrement [7] ∧
    s.spDecrement.mem = s.mem ∧ s.spDecrement.pc = s.pc ∧ s.spDecrement.run = s.run ∧ s.spDecrement.out = s.out ∧
    s.spIncrement.sp.toNat = (s.sp.toNat + 1) % 256 ∧ SameRegsExcept s s.spIncrement [7] ∧
    s.spIncrement.mem = s.mem ∧ s.spIncrement.pc = s.pc ∧ s.spIncrement.run = s.run ∧ s.spIncrement.out = s.out ∧
    s.spDecrement.spIncrement = s) ∧
  State.reset.spDecrement.sp.toNat = 0xF3

/-- R41, R42: an access above address 255 raises MemOutOfBounds with the address; at any other, a read returns the cell and
changes nothing, and a write changes that one cell and nothing else. -/
def Obligations.MemoryAccessTouchesOneCellOrRaises : Prop :=
  ∀ (s : State) (addr : Nat) (v : Byte),
    (255 < addr → memRead addr s = .error ⟨.memOutOfBounds, addr⟩ ∧ memWrite addr v s = .error ⟨.memOutOfBounds, addr⟩) ∧
    (addr ≤ 255 → memRead addr s = .ok (s.cell addr) ∧
      ∃ t, memWrite addr v s = .ok t ∧ t.cell addr = v ∧ SameMemExcept s t [addr] ∧ t.x = s.x ∧ t.pc = s.pc ∧
        t.run = s.run ∧ t.out = s.out)

/-! ### Rules about the whole machine -/

/-- R25: each completed instruction sets `pc` as the table says, and in no other way: unchanged for HLT, plus 3, plus 2, or set
directly by CALL (from the register as the decrement left it, D14) and RET. -/
def Obligations.EachInstructionSetsPcByTheTable : Prop :=
  ∀ (s t : State) (w : Window), s.WindowIs w → step s = .next t → t.isFaulted = false →
    (w.op = 0x01#8 → t.pc = s.pc) ∧
    (w.op ∈ [0x82#8, 0xA2#8, 0xA0#8] → t.pc.toNat = s.pc.toNat + 3) ∧
    (w.op ∈ [0x47#8, 0x45#8, 0x46#8] → t.pc.toNat = s.pc.toNat + 2) ∧
    (w.op = 0x50#8 → ∃ r, Names w.a r ∧ t.pc.toNat = (s.spDecrement.reg r).toNat) ∧
    (w.op = 0x11#8 → t.pc.toNat = (s.cell s.sp.toNat).toNat)

/-- R46, R49: a step changes a memory cell only if its window holds PUSH or CALL, and then only the cell at the decremented
SP. -/
def Obligations.OnlyPushAndCallWriteMemory : Prop :=
  ∀ (s t : State) (addr : Nat), step s = .next t → t.cell addr ≠ s.cell addr →
    addr = s.spDecrement.sp.toNat ∧ ∃ w, s.WindowIs w ∧ (w.op = 0x45#8 ∨ w.op = 0x50#8)

/-- R20: a step changes a register only as the table says: the named register for LDI, ADD, MUL and POP, `x[7]` for PUSH, POP,
CALL and RET. -/
def Obligations.RegistersChangeOnlyByTheTable : Prop :=
  ∀ (s t : State) (r : Fin 8), step s = .next t → t.reg r ≠ s.reg r →
    ∃ w, s.WindowIs w ∧
      ((w.op ∈ [0x82#8, 0xA0#8, 0xA2#8, 0x46#8] ∧ Names w.a r) ∨
       (w.op ∈ [0x45#8, 0x46#8, 0x50#8, 0x11#8] ∧ r = 7))

/-- R191 (decision D7), R102: a step delivers an output event exactly when its window holds PRN with a register of the file,
one event with that register's value, and otherwise none. The event list is the host's record (log 4). -/
def Obligations.OutputEventsComeFromPrnOnly : Prop :=
  ∀ s t : State, step s = .next t →
    (∃ w r, s.WindowIs w ∧ w.op = 0x47#8 ∧ Names w.a r ∧ t.out = s.out ++ [s.reg r]) ∨
    (t.out = s.out ∧ ∀ w r, s.WindowIs w → w.op = 0x47#8 → ¬ Names w.a r)

/-- R191, R32 ("nothing it does affects the Machine"): what the sink has already received has no influence on a step: two
states that differ only in it take the same step and deliver the same new events (log 4). -/
def Obligations.OutputRecordNeverInfluencesAStep : Prop :=
  ∀ (s t : State) (received : List Byte), step s = .next t →
    ∃ new, t.out = s.out ++ new ∧
      step { s with out := received } = .next { t with out := received ++ new }

/-- R55, R56 (decision D17): a PUSH whose store lands in its own window runs with the operands it was fetched with, and a later
fetch at the same address sees the new byte in its place. The stored value and `pc + 2` are those of R141; that PUSH R7 stores
the decremented SP is decision D14 (log 11, unsafe). -/
def Obligations.PushIntoItsOwnWindowIsSeenByTheNextFetchOnly : Prop :=
  ∀ (s : State) (a b : Byte) (r : Fin 8), s.run = .running → s.WindowIs ⟨0x45#8, a, b⟩ → Names a r →
    ∃ t, step s = .next t ∧ t.run = .running ∧ t.cell s.spDecrement.sp.toNat = s.spDecrement.reg r ∧
      t.pc.toNat = s.pc.toNat + 2 ∧
      (s.spDecrement.sp.toNat = s.pc.toNat → (t.setPc s.pc).WindowIs ⟨s.spDecrement.reg r, a, b⟩) ∧
      (s.spDecrement.sp.toNat = s.pc.toNat + 1 → (t.setPc s.pc).WindowIs ⟨0x45#8, s.spDecrement.reg r, b⟩) ∧
      (s.spDecrement.sp.toNat = s.pc.toNat + 2 → (t.setPc s.pc).WindowIs ⟨0x45#8, a, s.spDecrement.reg r⟩)

/-- R143 (the spec's inference; R7 by decision D14): after a PUSH of any of the eight registers, with any SP, a POP of the same
register restores that register and SP and leaves the pushed cell as PUSH wrote it, whatever happened between, so long as SP and
the pushed cell are as PUSH left them (no other stack change). The POP changes no register but the two and not the run state;
when nothing at all happened between, every register is as before the PUSH. -/
def Obligations.PushThenPopRestoresRegisterAndSp : Prop :=
  ∀ (s : State) (a : Byte) (r : Fin 8), Names a r →
    ∃ t, exec (.push a) s = .next t ∧ t.sp = s.spDecrement.sp ∧
      (∀ u : State, u.sp = t.sp → u.cell t.sp.toNat = t.cell t.sp.toNat →
        ∃ v, exec (.pop a) u = .next v ∧ v.reg r = s.reg r ∧ v.sp = s.sp ∧ v.run = u.run ∧
          SameRegsExcept u v [r, 7] ∧ v.cell t.sp.toNat = t.cell t.sp.toNat) ∧
      (∃ v, exec (.pop a) t = .next v ∧ SameRegsExcept s v [])

/-- R163 (the spec's inference): if the subroutine entered by a CALL leaves SP and the cell at SP as it found them, the RET
that ends it returns to the instruction after the CALL, with SP as before the CALL. -/
def Obligations.CallThenRetReturnsPastTheCall : Prop :=
  ∀ (s : State) (a : Byte) (r : Fin 8), Names a r → s.pc.toNat + 2 ≤ 255 →
    ∃ t, exec (.call a) s = .next t ∧
      ∀ u : State, u.sp = t.sp → u.cell t.sp.toNat = t.cell t.sp.toNat →
        ∃ v, exec .ret u = .next v ∧ v.pc.toNat = s.pc.toNat + 2 ∧ v.sp = s.sp

/-- R88 (decision D24): a run ends at its first Halted or Faulted state: more fuel changes nothing from there, and exactly
there it yields the record of output events, the run state and, for Halted, `x`, `pc` and `M`. That the record `State.out` is
the run's own event sequence is log 4 (DESIGN CHOICE: the record starts anew at reset); YieldedEventsAreTheRunsOwn states it of
a booted run. -/
def Obligations.EndedRunStaysAtItsYield : Prop :=
  (∀ (n m : Nat) (s : State), (runFor n s).ended = true → runFor (n + m) s = runFor n s) ∧
  (∀ s : State, (s.yield.isSome = true ↔ s.ended = true) ∧
    (s.run = .halted → s.yield = some ⟨s.out, .halted, some (s.x, s.pc, s.mem)⟩) ∧
    (s.isFaulted = true → s.yield = some ⟨s.out, s.run, none⟩))

/-! ### Invariants -/

/-- The model's memory form: two memories in canonical form that read alike everywhere are the same data. -/
def Obligations.CanonicalMemoriesThatReadAlikeAreEqual : Prop :=
  ∀ m m' : Memory, Memory.wf m → Memory.wf m' → (∀ addr, Memory.read m addr = Memory.read m' addr) → m = m'

/-- R34, R210: the constructed Machine, with any `SP_INIT` (D21), meets the invariant; its
record of output events is empty (log 4). -/
def Obligations.ResetStateMeetsTheInvariant : Prop :=
  State.reset.Inv ∧ ∀ spInit : Byte, (State.constructed spInit).Inv

/-- R26, R180, R183, R186: from every state in which memory is canonical, `pc` is at most 256, a Faulted run state is one the
rules allow and an Idle machine's record of output events is empty (log 4), a step leaves such a state. -/
def Obligations.EveryStepKeepsTheInvariant : Prop :=
  ∀ s t : State, s.Inv → step s = .next t → t.Inv

/-- R195, R196, R210: the host's transactions keep the invariant, whatever they carry; a reset starts
the record of output events anew (log 4). -/
def Obligations.EveryTransactionKeepsTheInvariant : Prop :=
  ∀ (s : State) (tr : Transaction), s.Inv → (transact tr s).Inv

/-! ### Beside the statements above: CALL into its own window, and the events of one run -/

/-- R55, R56 (decision D17; CALL R7 by D14, log 11, unsafe): a CALL whose return address lands in its own window runs with the
operand it was fetched with, and a later fetch at the same address sees the return address byte in its place. -/
def Obligations.CallIntoItsOwnWindowIsSeenByTheNextFetchOnly : Prop :=
  ∀ (s : State) (a b : Byte) (r : Fin 8), s.run = .running → s.WindowIs ⟨0x50#8, a, b⟩ → Names a r →
    ∃ t, step s = .next t ∧ t.run = .running ∧ t.cell s.spDecrement.sp.toNat = BitVec.ofNat 8 (s.pc.toNat + 2) ∧
      t.pc.toNat = (s.spDecrement.reg r).toNat ∧
      (s.spDecrement.sp.toNat = s.pc.toNat →
        (t.setPc s.pc).WindowIs ⟨BitVec.ofNat 8 (s.pc.toNat + 2), a, b⟩) ∧
      (s.spDecrement.sp.toNat = s.pc.toNat + 1 →
        (t.setPc s.pc).WindowIs ⟨0x50#8, BitVec.ofNat 8 (s.pc.toNat + 2), b⟩) ∧
      (s.spDecrement.sp.toNat = s.pc.toNat + 2 →
        (t.setPc s.pc).WindowIs ⟨0x50#8, a, BitVec.ofNat 8 (s.pc.toNat + 2)⟩)

/-- R88, R191 (decisions D7, D24): however the Machine was used before, a run started by reset, load and run yields exactly
the PRN events of that run, in program order: the value of the register for each PRN its steps complete, and nothing else; so does
a run started from any Idle state of the invariant. From any state, steps add just these to the record. That the record starts
anew at reset is log 4 (DESIGN CHOICE). -/
def Obligations.YieldedEventsAreTheRunsOwn : Prop :=
  (∀ (n : Nat) (s : State), (runFor n s).out = s.out ++ runEvents n s) ∧
  (∀ (n : Nat) (s : State) (bytes : List Byte) (y : Yield),
    (runFor n (boot bytes s)).yield = some y → y.events = runEvents n (boot bytes s)) ∧
  (∀ (n : Nat) (s : State) (y : Yield), s.Inv → s.run = .idle →
    (runFor n (transact .run s)).yield = some y → y.events = runEvents n (transact .run s))
end

