-- ==== Sys2Proof/Laws/Decode.lean ====
section
/-! SUPPORT. Everything the decoder can answer, said once (30_encoding.md R64, R67). -/

namespace Sys2Proof

/-- A window's opcode is one of the nine, and selects its instruction, or it is illegal (R64, R67). -/
theorem decode_cases (w : Window) :
  (w.op = 0x01#8 ∧ decode w = .instr .hlt) ∨ (w.op = 0x82#8 ∧ decode w = .instr (.ldi w.a w.b)) ∨
  (w.op = 0x47#8 ∧ decode w = .instr (.prn w.a)) ∨ (w.op = 0xA2#8 ∧ decode w = .instr (.mul w.a w.b)) ∨
  (w.op = 0xA0#8 ∧ decode w = .instr (.add w.a w.b)) ∨ (w.op = 0x45#8 ∧ decode w = .instr (.push w.a)) ∨
  (w.op = 0x46#8 ∧ decode w = .instr (.pop w.a)) ∨ (w.op = 0x50#8 ∧ decode w = .instr (.call w.a)) ∨
  (w.op = 0x11#8 ∧ decode w = .instr .ret) ∨
  (w.op ∉ [0x01#8, 0x82#8, 0x47#8, 0xA2#8, 0xA0#8, 0x45#8, 0x46#8, 0x50#8, 0x11#8] ∧ decode w = .illegal w.op) := by
  obtain ⟨op, a, b⟩ := w
  by_cases h : op ∈ [0x01#8, 0x82#8, 0x47#8, 0xA2#8, 0xA0#8, 0x45#8, 0x46#8, 0x50#8, 0x11#8]
  · simp only [List.mem_cons, List.not_mem_nil, or_false] at h
    rcases h with rfl|rfl|rfl|rfl|rfl|rfl|rfl|rfl|rfl <;> simp [decode, hltOpcode, dispatchTable, List.lookup]
  · refine .inr <| .inr <| .inr <| .inr <| .inr <| .inr <| .inr <| .inr <| .inr ⟨h, ?_⟩
    simp only [List.mem_cons, List.not_mem_nil, or_false, not_or] at h
    have : dispatchTable.lookup op = none := by
      have e : ∀ (x y : Byte), x ≠ y → (x == y) = false := by intro x y h; simpa using h
      simp [dispatchTable, List.lookup, e, h]
    simp [decode, hltOpcode, h, this]

end Sys2Proof
end

