-- ==== Sys2Proof/Laws/State.lean ====
section
/-! SUPPORT. One lemma per field per update of State, and one per observer (`reg`, `sp`, `cell`) per update that leaves it
alone, so that no later proof unfolds a record update. -/

namespace Sys2Proof.Machine.State

variable (s : State)

@[simp] theorem setCell_x (addr : Nat) (v : Byte) : (s.setCell addr v).x = s.x := rfl
@[simp] theorem setCell_pc (addr : Nat) (v : Byte) : (s.setCell addr v).pc = s.pc := rfl
@[simp] theorem setCell_mem (addr : Nat) (v : Byte) : (s.setCell addr v).mem = Memory.write s.mem addr v := rfl
@[simp] theorem setCell_run (addr : Nat) (v : Byte) : (s.setCell addr v).run = s.run := rfl
@[simp] theorem setCell_out (addr : Nat) (v : Byte) : (s.setCell addr v).out = s.out := rfl
@[simp] theorem setCell_reg (addr : Nat) (v : Byte) (j : Fin 8) : (s.setCell addr v).reg j = s.reg j := rfl
@[simp] theorem setCell_sp (addr : Nat) (v : Byte) : (s.setCell addr v).sp = s.sp := rfl

@[simp] theorem setReg_x (i : Fin 8) (v : Byte) : (s.setReg i v).x = s.x.set i.val v := rfl
@[simp] theorem setReg_pc (i : Fin 8) (v : Byte) : (s.setReg i v).pc = s.pc := rfl
@[simp] theorem setReg_mem (i : Fin 8) (v : Byte) : (s.setReg i v).mem = s.mem := rfl
@[simp] theorem setReg_run (i : Fin 8) (v : Byte) : (s.setReg i v).run = s.run := rfl
@[simp] theorem setReg_out (i : Fin 8) (v : Byte) : (s.setReg i v).out = s.out := rfl
@[simp] theorem setReg_cell (i : Fin 8) (v : Byte) (addr' : Nat) : (s.setReg i v).cell addr' = s.cell addr' := rfl

@[simp] theorem setPc_x (t : Pc) : (s.setPc t).x = s.x := rfl
@[simp] theorem setPc_pc (t : Pc) : (s.setPc t).pc = t := rfl
@[simp] theorem setPc_mem (t : Pc) : (s.setPc t).mem = s.mem := rfl
@[simp] theorem setPc_run (t : Pc) : (s.setPc t).run = s.run := rfl
@[simp] theorem setPc_out (t : Pc) : (s.setPc t).out = s.out := rfl
@[simp] theorem setPc_reg (t : Pc) (j : Fin 8) : (s.setPc t).reg j = s.reg j := rfl
@[simp] theorem setPc_sp (t : Pc) : (s.setPc t).sp = s.sp := rfl
@[simp] theorem setPc_cell (t : Pc) (addr' : Nat) : (s.setPc t).cell addr' = s.cell addr' := rfl

@[simp] theorem setRun_x (r : RunState) : (s.setRun r).x = s.x := rfl
@[simp] theorem setRun_pc (r : RunState) : (s.setRun r).pc = s.pc := rfl
@[simp] theorem setRun_mem (r : RunState) : (s.setRun r).mem = s.mem := rfl
@[simp] theorem setRun_run (r : RunState) : (s.setRun r).run = r := rfl
@[simp] theorem setRun_out (r : RunState) : (s.setRun r).out = s.out := rfl
@[simp] theorem setRun_reg (r : RunState) (j : Fin 8) : (s.setRun r).reg j = s.reg j := rfl
@[simp] theorem setRun_sp (r : RunState) : (s.setRun r).sp = s.sp := rfl
@[simp] theorem setRun_cell (r : RunState) (addr' : Nat) : (s.setRun r).cell addr' = s.cell addr' := rfl

@[simp] theorem emit_x (v : Byte) : (s.emit v).x = s.x := rfl
@[simp] theorem emit_pc (v : Byte) : (s.emit v).pc = s.pc := rfl
@[simp] theorem emit_mem (v : Byte) : (s.emit v).mem = s.mem := rfl
@[simp] theorem emit_run (v : Byte) : (s.emit v).run = s.run := rfl
@[simp] theorem emit_out (v : Byte) : (s.emit v).out = s.out ++ [v] := rfl
@[simp] theorem emit_reg (v : Byte) (j : Fin 8) : (s.emit v).reg j = s.reg j := rfl
@[simp] theorem emit_sp (v : Byte) : (s.emit v).sp = s.sp := rfl
@[simp] theorem emit_cell (v : Byte) (addr' : Nat) : (s.emit v).cell addr' = s.cell addr' := rfl

@[simp] theorem advancePc_x (n : Nat) : (s.advancePc n).x = s.x := rfl
@[simp] theorem advancePc_pc (n : Nat) : (s.advancePc n).pc = s.pc + BitVec.ofNat 9 n := rfl
@[simp] theorem advancePc_mem (n : Nat) : (s.advancePc n).mem = s.mem := rfl
@[simp] theorem advancePc_run (n : Nat) : (s.advancePc n).run = s.run := rfl
@[simp] theorem advancePc_out (n : Nat) : (s.advancePc n).out = s.out := rfl
@[simp] theorem advancePc_reg (n : Nat) (j : Fin 8) : (s.advancePc n).reg j = s.reg j := rfl
@[simp] theorem advancePc_sp (n : Nat) : (s.advancePc n).sp = s.sp := rfl
@[simp] theorem advancePc_cell (n : Nat) (addr' : Nat) : (s.advancePc n).cell addr' = s.cell addr' := rfl

@[simp] theorem halt_x : (s.halt).x = s.x := rfl
@[simp] theorem halt_pc : (s.halt).pc = s.pc := rfl
@[simp] theorem halt_mem : (s.halt).mem = s.mem := rfl
@[simp] theorem halt_run : (s.halt).run = .halted := rfl
@[simp] theorem halt_out : (s.halt).out = s.out := rfl
@[simp] theorem halt_reg (j : Fin 8) : (s.halt).reg j = s.reg j := rfl
@[simp] theorem halt_sp : (s.halt).sp = s.sp := rfl
@[simp] theorem halt_cell (addr' : Nat) : (s.halt).cell addr' = s.cell addr' := rfl

@[simp] theorem enterFault_x (e : Raise) : (s.enterFault e).x = s.x := rfl
@[simp] theorem enterFault_pc (e : Raise) : (s.enterFault e).pc = s.pc := rfl
@[simp] theorem enterFault_mem (e : Raise) : (s.enterFault e).mem = s.mem := rfl
@[simp] theorem enterFault_run (e : Raise) : (s.enterFault e).run = .faulted e.kind e.info s.pc := rfl
@[simp] theorem enterFault_out (e : Raise) : (s.enterFault e).out = s.out := rfl
@[simp] theorem enterFault_reg (e : Raise) (j : Fin 8) : (s.enterFault e).reg j = s.reg j := rfl
@[simp] theorem enterFault_sp (e : Raise) : (s.enterFault e).sp = s.sp := rfl
@[simp] theorem enterFault_cell (e : Raise) (addr' : Nat) : (s.enterFault e).cell addr' = s.cell addr' := rfl

@[simp] theorem spDecrement_x : (s.spDecrement).x = s.x.set 7 (s.sp - 1#8) := rfl
@[simp] theorem spDecrement_pc : (s.spDecrement).pc = s.pc := rfl
@[simp] theorem spDecrement_mem : (s.spDecrement).mem = s.mem := rfl
@[simp] theorem spDecrement_run : (s.spDecrement).run = s.run := rfl
@[simp] theorem spDecrement_out : (s.spDecrement).out = s.out := rfl
@[simp] theorem spDecrement_cell (addr' : Nat) : (s.spDecrement).cell addr' = s.cell addr' := rfl

@[simp] theorem spIncrement_x : (s.spIncrement).x = s.x.set 7 (s.sp + 1#8) := rfl
@[simp] theorem spIncrement_pc : (s.spIncrement).pc = s.pc := rfl
@[simp] theorem spIncrement_mem : (s.spIncrement).mem = s.mem := rfl
@[simp] theorem spIncrement_run : (s.spIncrement).run = s.run := rfl
@[simp] theorem spIncrement_out : (s.spIncrement).out = s.out := rfl
@[simp] theorem spIncrement_cell (addr' : Nat) : (s.spIncrement).cell addr' = s.cell addr' := rfl

/-- A register write is read back, and no other register is touched (R20, R23). -/
@[simp] theorem setReg_reg (i : Fin 8) (v : Byte) (j : Fin 8) : (s.setReg i v).reg j = if j = i then v else s.reg j := by
  simp only [reg, setReg_x, Vector.getElem_set, Fin.ext_iff, eq_comm]

@[simp] theorem setReg_sp (i : Fin 8) (v : Byte) : (s.setReg i v).sp = if i = 7 then v else s.sp := by
  simp only [sp, setReg_reg, eq_comm]

/-- The decrement writes `x[7]` only (R140). -/
@[simp] theorem spDecrement_reg (j : Fin 8) : s.spDecrement.reg j = if j = 7 then s.sp - 1#8 else s.reg j :=
  setReg_reg s 7 (s.sp - 1#8) j

/-- The increment writes `x[7]` only (R140). -/
@[simp] theorem spIncrement_reg (j : Fin 8) : s.spIncrement.reg j = if j = 7 then s.sp + 1#8 else s.reg j :=
  setReg_reg s 7 (s.sp + 1#8) j

@[simp] theorem spDecrement_sp : s.spDecrement.sp = s.sp - 1#8 := by simp [sp]

@[simp] theorem spIncrement_sp : s.spIncrement.sp = s.sp + 1#8 := by simp [sp]

/-- The stack pointer is register 7 (R21). -/
theorem sp_eq_reg : s.sp = s.reg 7 := rfl

/-- Two states that agree in every field are equal. -/
theorem ext_fields {s t : State} (hx : s.x = t.x) (hpc : s.pc = t.pc) (hm : s.mem = t.mem) (hr : s.run = t.run)
    (ho : s.out = t.out) : s = t := by
  cases s; cases t; simp_all

end Sys2Proof.Machine.State
end

