-- ==== Sys2Proof/Laws/Memory.lean ====
section
/-! SUPPORT. Memory: a read after a write, and that every memory operation keeps the canonical form. -/

namespace Sys2Proof.Machine.Memory

theorem read_erase (m : Memory) (addr a : Nat) :
    read (erase m addr) a = if a = addr then Config.memReset else read m a := by
  induction m with
  | nil => simp [erase, read]
  | cons c m ih =>
    simp only [erase, List.filter_cons] at ih ⊢
    by_cases hc : c.1 = addr
    · by_cases ha : a = addr
      · simp_all
      · simp_all [read, Ne.symm ha]
    · by_cases ha : a = addr
      · simp_all [read]
      · simp_all [read]

theorem read_insert (m : Memory) (addr : Nat) (v : Byte) (a : Nat)
    (h : ∀ c ∈ m, c.1 ≠ addr) :
    read (insert addr v m) a = if a = addr then v else read m a := by

  induction m with
  | nil => simp [insert, read, eq_comm]
  | cons c m ih =>
    have hc := h c (by simp)
    have ih := ih (fun d hd => h d (by simp [hd]))
    unfold insert
    split
    · simp [read, eq_comm]
    · simp only [read, ih]
      by_cases h1 : c.1 = a
      · simp [h1, show a ≠ addr from h1 ▸ hc]
      · simp [h1]

theorem not_mem_erase (m : Memory) (addr : Nat) : ∀ c ∈ erase m addr, c.1 ≠ addr := by
  intro c hc
  simpa [erase] using (List.mem_filter.mp hc).2

/-- A read after a write gives the byte written at that address, and what was there before at every other (R42). -/
@[simp] theorem read_write (m : Memory) (addr : Nat) (v : Byte) (a : Nat) :
    read (write m addr v) a = if a = addr then v else read m a := by
  unfold write
  split
  · simp_all [read_erase]
  · rw [read_insert _ _ _ _ (not_mem_erase m addr), read_erase]
    split <;> rfl

theorem mem_insert (m : Memory) (addr : Nat) (v : Byte) (c : Host.Cell) :
    c ∈ insert addr v m ↔ c = (addr, v) ∨ c ∈ m := by
  induction m with
  | nil => simp [insert]
  | cons d m ih =>
    unfold insert
    split
    · simp
    · simp only [List.mem_cons, ih]; tauto

theorem wf_erase {m : Memory} (h : wf m) (addr : Nat) : wf (erase m addr) :=
  ⟨h.1.filter _, fun c hc => h.2 c (List.mem_filter.mp hc).1⟩

theorem pairwise_insert {m : Memory} (h : m.Pairwise (fun c d => c.1 < d.1)) (addr : Nat) (v : Byte)
    (hne : ∀ c ∈ m, c.1 ≠ addr) : (insert addr v m).Pairwise (fun c d => c.1 < d.1) := by
  induction m with
  | nil => simp [insert]
  | cons c m ih =>
    obtain ⟨hc, hm⟩ := List.pairwise_cons.mp h
    have hne' := hne c (by simp)
    unfold insert
    split
    · rename_i hlt
      refine List.pairwise_cons.mpr ⟨fun d hd => ?_, h⟩
      rcases List.mem_cons.mp hd with rfl | hd
      · exact hlt
      · exact Nat.lt_trans hlt (hc d hd)
    · rename_i hlt
      refine List.pairwise_cons.mpr ⟨fun d hd => ?_, ih hm (fun d hd => hne d (by simp [hd]))⟩
      rcases (mem_insert m addr v d).mp hd with rfl | hd
      · exact Nat.lt_of_le_of_ne (Nat.le_of_not_lt hlt) hne'
      · exact hc d hd

/-- A write of a cell keeps the canonical form. -/
theorem wf_write {m : Memory} (h : wf m) {addr : Nat} (ha : addr < Config.memSize) (v : Byte) : wf (write m addr v) := by
  unfold write
  split
  · exact wf_erase h addr
  · rename_i hv
    have he := wf_erase h addr
    refine ⟨pairwise_insert he.1 addr v (not_mem_erase m addr), fun c hc => ?_⟩
    rcases (mem_insert _ addr v c).mp hc with rfl | hc
    · exact ⟨ha, hv⟩
    · exact he.2 c hc

/-- The empty memory, as after reset, is in canonical form. -/
theorem wf_nil : wf ([] : Memory) := ⟨List.Pairwise.nil, by simp⟩

end Sys2Proof.Machine.Memory

namespace Sys2Proof.Machine.State

/-- A cell write is read back, and no other cell is touched (R42). -/
@[simp] theorem setCell_cell (s : State) (addr : Nat) (v : Byte) (a : Nat) :
    (s.setCell addr v).cell a = if a = addr then v else s.cell a := Memory.read_write s.mem addr v a

end Sys2Proof.Machine.State
end

