-- ==== Sys2Proof/Laws/Ops.lean ====
section
/-! SUPPORT. One lemma per shared operation, saying once everything it can do: register operands, memory accesses, the ALU,
the commit of an instruction, the fetch of a window. -/

namespace Sys2Proof.Machine

/-! ### Numbers -/

@[simp] theorem zextPc_toNat (b : Byte) : (zextPc b).toNat = b.toNat := by
  simp [zextPc]; omega

theorem narrow_toNat (n : Nat) : (narrow n).toNat = n % 256 := by simp [narrow]

/-- In a window that lies in memory the advance of `pc` is exact (R25, R26). -/
theorem State.advancePc_toNat (s : State) (n : Nat) (h : s.pc.toNat + n < 512) :
    (s.advancePc n).pc.toNat = s.pc.toNat + n := by
  simp [State.advancePc_pc, BitVec.toNat_add]; omega

/-- The decrement as a number, modulo 256 (R140). -/
theorem State.spDecrement_toNat (s : State) : s.spDecrement.sp.toNat = (s.sp.toNat + 255) % 256 := by
  simp; omega

/-- The increment as a number, modulo 256 (R140). -/
theorem State.spIncrement_toNat (s : State) : s.spIncrement.sp.toNat = (s.sp.toNat + 1) % 256 := by
  simp [BitVec.toNat_add]

/-! ### Register operands -/

/-- A byte of 0 to 7 names exactly one register, any other byte none (R22). -/
theorem names_or_ge (a : Byte) : (∃ r, Names a r) ∨ 8 ≤ a.toNat := by
  by_cases h : a.toNat < 8
  · exact .inl ⟨⟨a.toNat, h⟩, rfl⟩
  · exact .inr (by omega)

theorem Names.lt {a : Byte} {r : Fin 8} (h : Names a r) : a.toNat < 8 := h ▸ r.isLt

theorem Names.unique {a : Byte} {r r' : Fin 8} (h : Names a r) (h' : Names a r') : r = r' :=
  Fin.ext (h.symm.trans h')

theorem regIndex_of_names {a : Byte} {r : Fin 8} (h : Names a r) : regIndex a = .ok r := by
  simp [regIndex, show a.toNat = r.val from h]

theorem regIndex_of_ge {a : Byte} (h : 8 ≤ a.toNat) : regIndex a = .error ⟨.registerIndexOutOfRange, a.toNat⟩ := by
  simp [regIndex, Nat.not_lt.mpr h]

theorem readReg_of_names {a : Byte} {r : Fin 8} (h : Names a r) (s : State) : readReg a s = .ok (s.reg r) := by
  simp [readReg, regIndex_of_names h, bind, Except.bind, pure, Except.pure]

theorem readReg_of_ge {a : Byte} (h : 8 ≤ a.toNat) (s : State) :
    readReg a s = .error ⟨.registerIndexOutOfRange, a.toNat⟩ := by
  simp [readReg, regIndex_of_ge h, bind, Except.bind]

theorem writeReg_of_names {a : Byte} {r : Fin 8} (h : Names a r) (v : Byte) (s : State) :
    writeReg a v s = .ok (s.setReg r v) := by
  simp [writeReg, regIndex_of_names h, bind, Except.bind, pure, Except.pure]

theorem writeReg_of_ge {a : Byte} (h : 8 ≤ a.toNat) (v : Byte) (s : State) :
    writeReg a v s = .error ⟨.registerIndexOutOfRange, a.toNat⟩ := by
  simp [writeReg, regIndex_of_ge h, bind, Except.bind]

/-! ### Memory accesses -/

theorem memRead_of_lt {addr : Nat} (h : addr < 256) (s : State) : memRead addr s = .ok (s.cell addr) := by
  simp [memRead, h]

theorem memRead_of_ge {addr : Nat} (h : 256 ≤ addr) (s : State) : memRead addr s = .error ⟨.memOutOfBounds, addr⟩ := by
  simp [memRead, Nat.not_lt.mpr h]

theorem memWrite_of_lt {addr : Nat} (h : addr < 256) (v : Byte) (s : State) :
    memWrite addr v s = .ok (s.setCell addr v) := by
  simp [memWrite, h]

theorem memWrite_of_ge {addr : Nat} (h : 256 ≤ addr) (v : Byte) (s : State) :
    memWrite addr v s = .error ⟨.memOutOfBounds, addr⟩ := by
  simp [memWrite, Nat.not_lt.mpr h]

/-- A stack read has a byte for its address, so it never raises (R48). -/
theorem memRead_byte (b : Byte) (s : State) : memRead b.toNat s = .ok (s.cell b.toNat) := memRead_of_lt b.isLt s

/-- A stack write has a byte for its address, so it never raises (R48). -/
theorem memWrite_byte (b v : Byte) (s : State) : memWrite b.toNat v s = .ok (s.setCell b.toNat v) :=
  memWrite_of_lt b.isLt v s

/-! ### The pseudocode of each instruction -/

theorem ldi_of_names {a : Byte} {r : Fin 8} (h : Names a r) (b : Byte) (s : State) :
    ldi a b s = .ok ((s.setReg r b).advancePc 3) := by
  simp [ldi, writeReg_of_names h, bind, Except.bind, pure, Except.pure]

theorem ldi_of_ge {a : Byte} (h : 8 ≤ a.toNat) (b : Byte) (s : State) :
    ldi a b s = .error ⟨.registerIndexOutOfRange, a.toNat⟩ := by
  simp [ldi, writeReg_of_ge h, bind, Except.bind]

theorem prn_of_names {a : Byte} {r : Fin 8} (h : Names a r) (s : State) :
    prn a s = .ok ((s.emit (s.reg r)).advancePc 2) := by
  simp [prn, readReg_of_names h, bind, Except.bind, pure, Except.pure]

theorem prn_of_ge {a : Byte} (h : 8 ≤ a.toNat) (s : State) : prn a s = .error ⟨.registerIndexOutOfRange, a.toNat⟩ := by
  simp [prn, readReg_of_ge h, bind, Except.bind]

/-- The ALU on two registers of the file: one write of the destination, or the select is not one of its own (R120, R122). -/
theorem alu_of_names {d src : Byte} {rd rs : Fin 8} (hd : Names d rd) (hs : Names src rs) (sel : AluSelect) (s : State) :
    alu sel d src s = (sel.result (s.reg rd) (s.reg rs)).map (fun v => s.setReg rd v) := by
  simp only [alu, readReg_of_names hd, readReg_of_names hs, bind, Except.bind, Except.map]
  cases sel.result (s.reg rd) (s.reg rs) <;> simp [writeReg_of_names hd]

/-- The destination's index is checked before the source's (R120, R185). -/
theorem alu_of_dest_ge {d : Byte} (hd : 8 ≤ d.toNat) (sel : AluSelect) (src : Byte) (s : State) :
    alu sel d src s = .error ⟨.registerIndexOutOfRange, d.toNat⟩ := by
  simp [alu, readReg_of_ge hd, bind, Except.bind]

theorem alu_of_source_ge {d src : Byte} {rd : Fin 8} (hd : Names d rd) (hs : 8 ≤ src.toNat) (sel : AluSelect)
    (s : State) : alu sel d src s = .error ⟨.registerIndexOutOfRange, src.toNat⟩ := by
  simp [alu, readReg_of_names hd, readReg_of_ge hs, bind, Except.bind]

theorem mul_of_names {a b : Byte} {ra rb : Fin 8} (ha : Names a ra) (hb : Names b rb) (s : State) :
    mul a b s = .ok ((s.setReg ra (narrow ((s.reg ra).toNat * (s.reg rb).toNat))).advancePc 3) := by
  simp [mul, alu_of_names ha hb, AluSelect.result, Except.map, bind, Except.bind, pure, Except.pure]

theorem add_of_names {a b : Byte} {ra rb : Fin 8} (ha : Names a ra) (hb : Names b rb) (s : State) :
    add a b s = .ok ((s.setReg ra (narrow ((s.reg ra).toNat + (s.reg rb).toNat))).advancePc 3) := by
  simp [add, alu_of_names ha hb, AluSelect.result, Except.map, bind, Except.bind, pure, Except.pure]

theorem mul_of_dest_ge {a : Byte} (ha : 8 ≤ a.toNat) (b : Byte) (s : State) :
    mul a b s = .error ⟨.registerIndexOutOfRange, a.toNat⟩ := by
  simp [mul, alu_of_dest_ge ha, bind, Except.bind]

theorem add_of_dest_ge {a : Byte} (ha : 8 ≤ a.toNat) (b : Byte) (s : State) :
    add a b s = .error ⟨.registerIndexOutOfRange, a.toNat⟩ := by
  simp [add, alu_of_dest_ge ha, bind, Except.bind]

theorem mul_of_source_ge {a b : Byte} {ra : Fin 8} (ha : Names a ra) (hb : 8 ≤ b.toNat) (s : State) :
    mul a b s = .error ⟨.registerIndexOutOfRange, b.toNat⟩ := by
  simp [mul, alu_of_source_ge ha hb, bind, Except.bind]

theorem add_of_source_ge {a b : Byte} {ra : Fin 8} (ha : Names a ra) (hb : 8 ≤ b.toNat) (s : State) :
    add a b s = .error ⟨.registerIndexOutOfRange, b.toNat⟩ := by
  simp [add, alu_of_source_ge ha hb, bind, Except.bind]

/-- The state a completed PUSH of register `r` leaves (R141). -/
def pushed (s : State) (r : Fin 8) : State :=
  (s.spDecrement.setCell s.spDecrement.sp.toNat (s.spDecrement.reg r)).advancePc 2

theorem push_of_names {a : Byte} {r : Fin 8} (h : Names a r) (s : State) : push a s = .ok (pushed s r) := by
  simp only [push, pushed, readReg_of_names h, memWrite_byte, bind, Except.bind, pure, Except.pure]

theorem push_of_ge {a : Byte} (h : 8 ≤ a.toNat) (s : State) : push a s = .error ⟨.registerIndexOutOfRange, a.toNat⟩ := by
  simp [push, readReg_of_ge h, bind, Except.bind]

/-- The state a completed POP into register `r` leaves (R142). -/
def popped (s : State) (r : Fin 8) : State := ((s.setReg r (s.cell s.sp.toNat)).spIncrement).advancePc 2

theorem pop_of_names {a : Byte} {r : Fin 8} (h : Names a r) (s : State) : pop a s = .ok (popped s r) := by
  simp only [pop, popped, writeReg_of_names h, memRead_byte, bind, Except.bind, pure, Except.pure]

theorem pop_of_ge {a : Byte} (h : 8 ≤ a.toNat) (s : State) : pop a s = .error ⟨.registerIndexOutOfRange, a.toNat⟩ := by
  simp [pop, writeReg_of_ge h, memRead_byte, bind, Except.bind]

/-- The state a completed CALL through register `r` leaves (R160). -/
def called (s : State) (r : Fin 8) : State :=
  (s.spDecrement.setCell s.spDecrement.sp.toNat (returnAddress s)).setPc (zextPc (s.spDecrement.reg r))

theorem call_of_names {a : Byte} {r : Fin 8} (h : Names a r) (s : State) : call a s = .ok (called s r) := by
  simp only [call, called, readReg_of_names h, memWrite_byte, bind, Except.bind, pure, Except.pure, State.setCell_reg,
    returnAddress, State.spDecrement_pc]

theorem call_of_ge {a : Byte} (h : 8 ≤ a.toNat) (s : State) : call a s = .error ⟨.registerIndexOutOfRange, a.toNat⟩ := by
  simp only [call, readReg_of_ge h, memWrite_byte, bind, Except.bind]

/-- RET always completes (R48, R161). -/
theorem ret_eq (s : State) : ret s = .ok ((s.setPc (zextPc (s.cell s.sp.toNat))).spIncrement) := by
  simp only [ret, memRead_byte, bind, Except.bind, pure, Except.pure]

/-! ### Commit and fault entry -/

@[simp] theorem commit_ok (s t : State) : commit s (.ok t) = .next t := rfl

@[simp] theorem commit_error (s : State) (e : Raise) : commit s (.error e) = .next (s.enterFault e) := rfl

/-- An instruction always has a next state: it completes, or it enters Faulted (R10, R186). -/
theorem commit_cases {s t : State} {r : Attempt State} (h : commit s r = .next t) :
    r = .ok t ∨ ∃ e, r = .error e ∧ t = s.enterFault e := by
  cases r with
  | ok u => simp at h; exact .inl (h ▸ rfl)
  | error e => simp at h; exact .inr ⟨e, rfl, h.symm⟩

/-- Fault entry changes the run state and nothing else (R186). -/
theorem takesFault_enterFault (s : State) (e : Raise) : TakesFault s (.next (s.enterFault e)) e.kind e.info :=
  ⟨_, rfl, rfl, rfl, rfl, rfl, rfl⟩

/-! ### Fetch -/

theorem fetchWindow_of_windowIs {s : State} {w : Window} (h : s.WindowIs w) : fetchWindow s = .ok w := by
  have := h.inMemory
  simp [fetchWindow, memRead_of_lt, bind, Except.bind, pure, Except.pure, h.op, h.a, h.b,
    show s.pc.toNat < 256 by omega, show s.pc.toNat + 1 < 256 by omega, show s.pc.toNat + 2 < 256 by omega]

/-- The window that lies at `pc`. -/
def windowAt (s : State) : Window := ⟨s.cell s.pc.toNat, s.cell (s.pc.toNat + 1), s.cell (s.pc.toNat + 2)⟩

theorem windowIs_windowAt {s : State} (h : s.pc.toNat + 2 ≤ 255) : s.WindowIs (windowAt s) := ⟨h, rfl, rfl, rfl⟩

theorem State.WindowIs.eq_windowAt {s : State} {w : Window} (h : s.WindowIs w) : w = windowAt s := by
  cases w; simp [windowAt, h.op, h.a, h.b]

/-- A window that does not fit in memory raises at its lowest failing address, 256 for every reachable `pc` (R81, R181). -/
theorem fetchWindow_of_top {s : State} (h : 254 ≤ s.pc.toNat) (h' : s.pc.toNat ≤ 256) :
    fetchWindow s = .error ⟨.memOutOfBounds, 256⟩ := by
  rcases (by omega : s.pc.toNat = 254 ∨ s.pc.toNat = 255 ∨ s.pc.toNat = 256) with h | h | h <;>
    simp [fetchWindow, h, memRead, Config.memSize, bind, Except.bind]

/-- The same for every 9-bit `pc`. -/
theorem fetchWindow_of_ge {s : State} (h : 254 ≤ s.pc.toNat) :
    ∃ addr, 256 ≤ addr ∧ fetchWindow s = .error ⟨.memOutOfBounds, addr⟩ := by
  by_cases h' : s.pc.toNat ≤ 256
  · exact ⟨256, le_refl _, fetchWindow_of_top h h'⟩
  · exact ⟨s.pc.toNat, by omega, by simp [fetchWindow, memRead_of_ge (show 256 ≤ s.pc.toNat by omega), bind, Except.bind]⟩

/-- Everything the fetch and decode of an instruction can do (R80 to R83). -/
theorem fetchDecode_cases (s : State) :
    (∃ w i, s.WindowIs w ∧ decode w = .instr i ∧ fetchDecode s = .ok i) ∨
    (∃ w, s.WindowIs w ∧ decode w = .illegal w.op ∧ fetchDecode s = .error ⟨.illegalInstruction, w.op.toNat⟩) ∨
    (∃ addr, 254 ≤ s.pc.toNat ∧ 256 ≤ addr ∧ (s.pc.toNat ≤ 256 → addr = 256) ∧
      fetchDecode s = .error ⟨.memOutOfBounds, addr⟩) := by
  by_cases h : s.pc.toNat + 2 ≤ 255
  · have hw := windowIs_windowAt h
    have hf : fetchDecode s = decodeOrRaise (windowAt s) := by
      simp [fetchDecode, fetchWindow_of_windowIs hw, bind, Except.bind]
    cases hd : decode (windowAt s) with
    | instr i => exact .inl ⟨_, i, hw, hd, by simp [hf, decodeOrRaise, hd]⟩
    | illegal op =>
      have hop : op = (windowAt s).op := by
        unfold decode at hd
        split at hd
        · cases hd
        · split at hd
          · cases hd
          · exact (Decoded.illegal.inj hd).symm
      subst hop
      exact .inr (.inl ⟨_, hw, hd, by simp [hf, decodeOrRaise, hd]⟩)
  · obtain ⟨addr, ha, hf⟩ := fetchWindow_of_ge (s := s) (by omega)
    refine .inr (.inr ⟨addr, by omega, ha, fun h' => ?_, by simp [fetchDecode, hf, bind, Except.bind]⟩)
    rw [fetchWindow_of_top (by omega) h'] at hf
    simpa using hf.symm

theorem fetchDecode_of_windowIs {s : State} {w : Window} {i : Instr} (h : s.WindowIs w) (hd : decode w = .instr i) :
    fetchDecode s = .ok i := by
  simp [fetchDecode, fetchWindow_of_windowIs h, decodeOrRaise, hd, bind, Except.bind]

end Sys2Proof.Machine
end

