-- ==== Sys2Proof/Laws/HostPort.lean ====
section
/-! SUPPORT. Everything the load port's loop can do, said once (60_exceptions.md R196). -/

namespace Sys2Proof.Machine

/-- A load that fits in memory writes its bytes and nothing else (R196). -/
theorem loadFrom_spec (bs : List Byte) : ∀ (addr : Nat) (s : State), addr + bs.length ≤ 256 →
    (∀ a, (loadFrom addr bs s).cell a =
      if h : addr ≤ a ∧ a < addr + bs.length then bs[a - addr]'(by omega) else s.cell a) ∧
    (loadFrom addr bs s).x = s.x ∧ (loadFrom addr bs s).pc = s.pc ∧ (loadFrom addr bs s).run = s.run ∧
    (loadFrom addr bs s).out = s.out := by
  induction bs with
  | nil => intro addr s h; simp [loadFrom]
  | cons b bs ih =>
    intro addr s h
    simp at h
    simp only [loadFrom, memWrite_of_lt (show addr < 256 by omega)]
    obtain ⟨h1, h2, h3, h4, h5⟩ := ih (addr+1) (s.setCell addr b) (by omega)
    refine ⟨fun a => ?_, by simpa using h2, by simpa using h3, by simpa using h4, by simpa using h5⟩
    rw [h1]
    by_cases ha : a = addr
    · subst ha; simp
    · by_cases hb : addr + 1 ≤ a ∧ a < addr + 1 + bs.length
      · rw [dif_pos hb, dif_pos (by simp; omega)]
        obtain ⟨k, rfl⟩ : ∃ k, a = addr + 1 + k := ⟨a - (addr+1), by omega⟩
        simp [show addr + 1 + k - addr = k + 1 by omega]
      · rw [dif_neg hb, dif_neg (by simp; omega)]; simp [ha]

/-- A load that reaches address 256 faults there, with registers, `pc` and record as before (R196). -/
theorem loadFrom_long (bs : List Byte) : ∀ (addr : Nat) (s : State), addr ≤ 256 → 256 < addr + bs.length →
    (loadFrom addr bs s).x = s.x ∧ (loadFrom addr bs s).pc = s.pc ∧
    (loadFrom addr bs s).run = .faulted .memOutOfBounds 256 s.pc ∧ (loadFrom addr bs s).out = s.out := by
  induction bs with
  | nil => intro addr s h h'; simp at h'; omega
  | cons b bs ih =>
    intro addr s h h'
    by_cases ha : addr = 256
    · subst ha; simp [loadFrom, memWrite_of_ge]
    · simp at h'
      simp only [loadFrom, memWrite_of_lt (show addr < 256 by omega)]
      simpa using ih (addr+1) (s.setCell addr b) (by omega) (by omega)

/-- However long, a load keeps memory canonical. -/
theorem loadFrom_wf (bs : List Byte) : ∀ (addr : Nat) (s : State), Memory.wf s.mem → Memory.wf (loadFrom addr bs s).mem := by
  induction bs with
  | nil => exact fun _ _ h => h
  | cons b bs ih =>
    intro addr s h
    by_cases ha : addr < 256
    · simp only [loadFrom, memWrite_of_lt ha]
      exact ih _ _ (Memory.wf_write h ha b)
    · simp only [loadFrom, memWrite_of_ge (show 256 ≤ addr by omega)]
      exact h

end Sys2Proof.Machine
end

