-- ==== Sys2Proof/Laws/PerInstr.lean ====
section
/-! SUPPORT. Facts that hold of every instruction as it is written, one lemma per constructor: an encoding begins with the
instruction's own opcode and has its architectural length, which is at most the three bytes of the window (R60, R61, R65). -/

namespace Sys2Proof.Laws.EncodingShape

/-- What each lemma below says of its instruction. -/
def Statement (i : Instr) : Prop :=
  (encode i).head? = some i.opcode ∧ (encode i).length = i.length ∧ 1 ≤ i.length ∧ i.length ≤ Config.fetchWindow

theorem hlt : Statement .hlt := by simp [Statement, encode, Instr.length, Instr.operandBytes, Config.fetchWindow]
theorem ldi (a b : Byte) : Statement (.ldi a b) := by simp [Statement, encode, Instr.length, Instr.operandBytes, Config.fetchWindow]
theorem prn (a : Byte) : Statement (.prn a) := by simp [Statement, encode, Instr.length, Instr.operandBytes, Config.fetchWindow]
theorem mul (a b : Byte) : Statement (.mul a b) := by simp [Statement, encode, Instr.length, Instr.operandBytes, Config.fetchWindow]
theorem add (a b : Byte) : Statement (.add a b) := by simp [Statement, encode, Instr.length, Instr.operandBytes, Config.fetchWindow]
theorem push (a : Byte) : Statement (.push a) := by simp [Statement, encode, Instr.length, Instr.operandBytes, Config.fetchWindow]
theorem pop (a : Byte) : Statement (.pop a) := by simp [Statement, encode, Instr.length, Instr.operandBytes, Config.fetchWindow]
theorem call (a : Byte) : Statement (.call a) := by simp [Statement, encode, Instr.length, Instr.operandBytes, Config.fetchWindow]
theorem ret : Statement .ret := by simp [Statement, encode, Instr.length, Instr.operandBytes, Config.fetchWindow]

end Sys2Proof.Laws.EncodingShape
end

