-- ==== Sys2Proof/Laws/Step.lean ====
section
/-! SUPPORT. What an instruction and a step can do, said once. -/

namespace Sys2Proof.Machine

/-- The pseudocode an instruction runs on its working copy (R10). -/
def handler : Instr → State → Attempt State
  | .hlt, s => .ok s.halt
  | .ldi a b, s => ldi a b s
  | .prn a, s => prn a s
  | .mul a b, s => mul a b s
  | .add a b, s => add a b s
  | .push a, s => push a s
  | .pop a, s => pop a s
  | .call a, s => call a s
  | .ret, s => ret s

/-- Every instruction is its pseudocode, committed (R10). -/
theorem exec_eq_commit (i : Instr) (s : State) : exec i s = commit s (handler i s) := by cases i <;> rfl

/-- Everything a completed instruction can have done. -/
theorem handler_cases {i : Instr} {s t : State} (h : handler i s = .ok t) :
    (i = .hlt ∧ t = s.halt) ∨
    (∃ a b r, i = .ldi a b ∧ Names a r ∧ t = (s.setReg r b).advancePc 3) ∨
    (∃ a r, i = .prn a ∧ Names a r ∧ t = (s.emit (s.reg r)).advancePc 2) ∨
    (∃ a b ra rb, i = .mul a b ∧ Names a ra ∧ Names b rb ∧
      t = (s.setReg ra (narrow ((s.reg ra).toNat * (s.reg rb).toNat))).advancePc 3) ∨
    (∃ a b ra rb, i = .add a b ∧ Names a ra ∧ Names b rb ∧
      t = (s.setReg ra (narrow ((s.reg ra).toNat + (s.reg rb).toNat))).advancePc 3) ∨
    (∃ a r, i = .push a ∧ Names a r ∧ t = pushed s r) ∨
    (∃ a r, i = .pop a ∧ Names a r ∧ t = popped s r) ∨
    (∃ a r, i = .call a ∧ Names a r ∧ t = called s r) ∨
    (i = .ret ∧ t = (s.setPc (zextPc (s.cell s.sp.toNat))).spIncrement) := by
  cases i with
  | hlt => simp [handler] at h; simp [h]
  | ldi a b =>
    rcases names_or_ge a with ⟨r, ha⟩ | ha
    · simp [handler, ldi_of_names ha] at h; exact .inr (.inl ⟨a, b, r, rfl, ha, h.symm⟩)
    · simp [handler, ldi_of_ge ha] at h
  | prn a =>
    rcases names_or_ge a with ⟨r, ha⟩ | ha
    · simp [handler, prn_of_names ha] at h; exact .inr (.inr (.inl ⟨a, r, rfl, ha, h.symm⟩))
    · simp [handler, prn_of_ge ha] at h
  | mul a b =>
    rcases names_or_ge a with ⟨ra, ha⟩ | ha
    · rcases names_or_ge b with ⟨rb, hb⟩ | hb
      · simp [handler, mul_of_names ha hb] at h
        exact .inr (.inr (.inr (.inl ⟨a, b, ra, rb, rfl, ha, hb, h.symm⟩)))
      · simp [handler, mul_of_source_ge ha hb] at h
    · simp [handler, mul_of_dest_ge ha] at h
  | add a b =>
    rcases names_or_ge a with ⟨ra, ha⟩ | ha
    · rcases names_or_ge b with ⟨rb, hb⟩ | hb
      · simp [handler, add_of_names ha hb] at h
        exact .inr (.inr (.inr (.inr (.inl ⟨a, b, ra, rb, rfl, ha, hb, h.symm⟩))))
      · simp [handler, add_of_source_ge ha hb] at h
    · simp [handler, add_of_dest_ge ha] at h
  | push a =>
    rcases names_or_ge a with ⟨r, ha⟩ | ha
    · simp [handler, push_of_names ha] at h
      exact .inr (.inr (.inr (.inr (.inr (.inl ⟨a, r, rfl, ha, h.symm⟩)))))
    · simp [handler, push_of_ge ha] at h
  | pop a =>
    rcases names_or_ge a with ⟨r, ha⟩ | ha
    · simp [handler, pop_of_names ha] at h
      exact .inr (.inr (.inr (.inr (.inr (.inr (.inl ⟨a, r, rfl, ha, h.symm⟩))))))
    · simp [handler, pop_of_ge ha] at h
  | call a =>
    rcases names_or_ge a with ⟨r, ha⟩ | ha
    · simp [handler, call_of_names ha] at h
      exact .inr (.inr (.inr (.inr (.inr (.inr (.inr (.inl ⟨a, r, rfl, ha, h.symm⟩)))))))
    · simp [handler, call_of_ge ha] at h
  | ret => simp [handler, ret_eq] at h; simp [h]

/-- An instruction raises only for a register operand of 8 to 255 that it uses (R184), the first of them (R185). -/
theorem handler_error {i : Instr} {s : State} {e : Raise} (h : handler i s = .error e) :
    ∃ b, i.badRegister = some b ∧ 8 ≤ b.toNat ∧ e = ⟨.registerIndexOutOfRange, b.toNat⟩ := by
  have reg_of : ∀ {a : Byte} {r : Fin 8}, Names a r → isRegister a = true := fun h => by simp [isRegister, h.lt]
  have bad_of : ∀ {a : Byte}, 8 ≤ a.toNat → isRegister a = false := fun h => by simp [isRegister, h]
  cases i with
  | hlt => simp [handler] at h
  | ret => simp [handler, ret_eq] at h
  | ldi a b =>
    rcases names_or_ge a with ⟨r, ha⟩ | ha
    · simp [handler, ldi_of_names ha] at h
    · simp [handler, ldi_of_ge ha] at h
      exact ⟨a, by simp [Instr.badRegister, Instr.registerOperands, bad_of ha], ha, h.symm⟩
  | prn a =>
    rcases names_or_ge a with ⟨r, ha⟩ | ha
    · simp [handler, prn_of_names ha] at h
    · simp [handler, prn_of_ge ha] at h
      exact ⟨a, by simp [Instr.badRegister, Instr.registerOperands, bad_of ha], ha, h.symm⟩
  | push a =>
    rcases names_or_ge a with ⟨r, ha⟩ | ha
    · simp [handler, push_of_names ha] at h
    · simp [handler, push_of_ge ha] at h
      exact ⟨a, by simp [Instr.badRegister, Instr.registerOperands, bad_of ha], ha, h.symm⟩
  | pop a =>
    rcases names_or_ge a with ⟨r, ha⟩ | ha
    · simp [handler, pop_of_names ha] at h
    · simp [handler, pop_of_ge ha] at h
      exact ⟨a, by simp [Instr.badRegister, Instr.registerOperands, bad_of ha], ha, h.symm⟩
  | call a =>
    rcases names_or_ge a with ⟨r, ha⟩ | ha
    · simp [handler, call_of_names ha] at h
    · simp [handler, call_of_ge ha] at h
      exact ⟨a, by simp [Instr.badRegister, Instr.registerOperands, bad_of ha], ha, h.symm⟩
  | mul a b =>
    rcases names_or_ge a with ⟨r, ha⟩ | ha
    · rcases names_or_ge b with ⟨rb, hb⟩ | hb
      · simp [handler, mul_of_names ha hb] at h
      · simp [handler, mul_of_source_ge ha hb] at h
        exact ⟨b, by simp [Instr.badRegister, Instr.registerOperands, reg_of ha, bad_of hb], hb, h.symm⟩
    · simp [handler, mul_of_dest_ge ha] at h
      exact ⟨a, by simp [Instr.badRegister, Instr.registerOperands, bad_of ha], ha, h.symm⟩
  | add a b =>
    rcases names_or_ge a with ⟨r, ha⟩ | ha
    · rcases names_or_ge b with ⟨rb, hb⟩ | hb
      · simp [handler, add_of_names ha hb] at h
      · simp [handler, add_of_source_ge ha hb] at h
        exact ⟨b, by simp [Instr.badRegister, Instr.registerOperands, reg_of ha, bad_of hb], hb, h.symm⟩
    · simp [handler, add_of_dest_ge ha] at h
      exact ⟨a, by simp [Instr.badRegister, Instr.registerOperands, bad_of ha], ha, h.symm⟩

/-- Outside Running the engine takes no step (R80, R86). -/
theorem step_of_not_running {s : State} (h : s.run ≠ .running) : ∃ r, step s = .fault r := by
  unfold step
  cases hr : s.run <;> simp_all [stopReason]

theorem step_of_fetch_ok {s : State} {i : Instr} (hr : s.run = .running) (hf : fetchDecode s = .ok i) :
    step s = exec i s := by simp [step, hr, stopReason, hf]

theorem step_of_fetch_error {s : State} {e : Raise} (hr : s.run = .running) (hf : fetchDecode s = .error e) :
    step s = .next (s.enterFault e) := by simp [step, hr, stopReason, hf]

/-- Everything a step can do: it is taken in Running only, and it enters Faulted, or completes the instruction of its window
(R80, R86, R186). -/
theorem step_cases {s t : State} (h : step s = .next t) :
    s.run = .running ∧
    ((∃ e, fetchDecode s = .error e ∧ t = s.enterFault e) ∨
     (∃ w i e, s.WindowIs w ∧ decode w = .instr i ∧ handler i s = .error e ∧ t = s.enterFault e) ∨
     (∃ w i, s.WindowIs w ∧ decode w = .instr i ∧ handler i s = .ok t)) := by
  by_cases hr : s.run = .running
  · refine ⟨hr, ?_⟩
    rcases fetchDecode_cases s with ⟨w, i, hw, hd, hf⟩ | ⟨w, hw, hd, hf⟩ | ⟨addr, -, -, -, hf⟩
    · rw [step_of_fetch_ok hr hf, exec_eq_commit] at h
      rcases commit_cases h with h | ⟨e, he, ht⟩
      · exact .inr (.inr ⟨w, i, hw, hd, h⟩)
      · exact .inr (.inl ⟨w, i, e, hw, hd, he, ht⟩)
    · rw [step_of_fetch_error hr hf] at h
      exact .inl ⟨_, hf, by simpa using h.symm⟩
    · rw [step_of_fetch_error hr hf] at h
      exact .inl ⟨_, hf, by simpa using h.symm⟩
  · obtain ⟨r, hs⟩ := step_of_not_running hr
    simp [hs] at h

/-- A step appends to the record the events read off the state before it, and nothing else (R191). -/
theorem step_out {s t : State} (h : step s = .next t) : t.out = s.out ++ stepEvents s := by
  obtain ⟨-, ⟨e, he, rfl⟩ | ⟨w, i, e, hw, hd, he, rfl⟩ | ⟨w, i, hw, hd, hh⟩⟩ := step_cases h
  · simp [stepEvents, he]
  · have hf := fetchDecode_of_windowIs hw hd
    cases i with
    | prn a =>
      rcases names_or_ge a with ⟨r, ha⟩ | ha
      · simp [handler, prn_of_names ha] at he
      · simp [stepEvents, hf, readReg_of_ge ha]
    | _ => simp [stepEvents, hf]
  · have hf := fetchDecode_of_windowIs hw hd
    rcases handler_cases hh with ⟨rfl, rfl⟩ | ⟨a, b, r, rfl, hn, rfl⟩ | ⟨a, r, rfl, hn, rfl⟩ |
      ⟨a, b, ra, rb, rfl, hn, hm, rfl⟩ | ⟨a, b, ra, rb, rfl, hn, hm, rfl⟩ | ⟨a, r, rfl, hn, rfl⟩ |
      ⟨a, r, rfl, hn, rfl⟩ | ⟨a, r, rfl, hn, rfl⟩ | ⟨rfl, rfl⟩
    · simp [stepEvents, hf]
    · simp [stepEvents, hf]
    · simp [stepEvents, hf, readReg_of_names hn]
    · simp [stepEvents, hf]
    · simp [stepEvents, hf]
    · simp [stepEvents, hf, pushed]
    · simp [stepEvents, hf, popped]
    · simp [stepEvents, hf, called]
    · simp [stepEvents, hf]

end Sys2Proof.Machine
end

