-- ==== Sys2Proof/Machine/Flags.lean ====
section
/-! DEFINITION. This hardware has no flags and no condition codes (10_state.md R27: "No instruction sets or reads a carry,
zero, overflow or sign indication; an overflowing ADD or MUL leaves no trace beyond its 8-bit result."). There is no flag
computation to define; the file stands here so that a reader who looks for one finds this rule. -/
end

