-- ==== Sys2Proof/Tests/Slice0.lean ====
section
/-! SUPPORT. The model's own tests: expected results are those of spec/95_test_vectors.md (W, V rows) or written out from
30_encoding.md R64 and R65; then, for each statement that has hypotheses, a state and operands that meet all of them. -/

namespace Sys2Proof.Tests.Slice0

open Sys2Proof.Machine

/-! ### Small states -/

/-- A Running Machine: the reset state with bytes stored from `pc` up, some registers set, some cells set. -/
def start (pc : Nat) (bytes : List Nat) (regs : List (Fin 8 × Nat)) (cells : List (Nat × Nat)) : State :=
  let s := loadFrom pc (bytes.map (BitVec.ofNat 8)) State.reset
  let s := regs.foldl (fun s r => s.setReg r.1 (BitVec.ofNat 8 r.2)) s
  let s := cells.foldl (fun s c => s.setCell c.1 (BitVec.ofNat 8 c.2)) s
  (s.setPc (BitVec.ofNat 9 pc)).setRun .running

/-- A state in some run state. -/
def inRun (r : RunState) : State := State.reset.setRun r

/-- What an observer sees of the next state, if there is one. -/
def look {α : Type} (f : State → α) : Host.Outcome State Fault Refusal → Option α
  | .next t => some (f t)
  | .fault _ => none
  | .refused _ => none

/-! ### Well-formedness: for each register operand, an instruction whose operand names no register is refused (R63, R71) -/

theorem test_wellFormed_refuses_ldi : (Instr.ldi 8#8 0#8).wellFormed = false := by decide
theorem test_wellFormed_refuses_prn : (Instr.prn 255#8).wellFormed = false := by decide
theorem test_wellFormed_refuses_mul_a : (Instr.mul 8#8 0#8).wellFormed = false := by decide
theorem test_wellFormed_refuses_mul_b : (Instr.mul 0#8 8#8).wellFormed = false := by decide
theorem test_wellFormed_refuses_add_a : (Instr.add 9#8 0#8).wellFormed = false := by decide
theorem test_wellFormed_refuses_add_b : (Instr.add 0#8 9#8).wellFormed = false := by decide
theorem test_wellFormed_refuses_push : (Instr.push 8#8).wellFormed = false := by decide
theorem test_wellFormed_refuses_pop : (Instr.pop 16#8).wellFormed = false := by decide
theorem test_wellFormed_refuses_call : (Instr.call 10#8).wellFormed = false := by decide
theorem test_wellFormed_accepts_immediate_255 : (Instr.ldi 7#8 255#8).wellFormed = true := by decide

/-! ### Decoding, one word per constructor, written out from R64 and R65 -/

theorem test_decode_hlt : decode ⟨0b00000001#8, 0xFF#8, 0xFF#8⟩ = .instr .hlt := by decide
theorem test_decode_ldi : decode ⟨0b10000010#8, 0b00000000#8, 0b00001000#8⟩ = .instr (.ldi 0#8 8#8) := by decide
theorem test_decode_prn : decode ⟨0b01000111#8, 0b00000111#8, 0xFF#8⟩ = .instr (.prn 7#8) := by decide
theorem test_decode_mul : decode ⟨0b10100010#8, 0b00000000#8, 0b00000001#8⟩ = .instr (.mul 0#8 1#8) := by decide
theorem test_decode_add : decode ⟨0b10100000#8, 0b00000010#8, 0b00000011#8⟩ = .instr (.add 2#8 3#8) := by decide
theorem test_decode_push : decode ⟨0b01000101#8, 0b00000100#8, 0x00#8⟩ = .instr (.push 4#8) := by decide
theorem test_decode_pop : decode ⟨0b01000110#8, 0b00000001#8, 0x00#8⟩ = .instr (.pop 1#8) := by decide
theorem test_decode_call : decode ⟨0b01010000#8, 0b00000001#8, 0x00#8⟩ = .instr (.call 1#8) := by decide
theorem test_decode_ret : decode ⟨0b00010001#8, 0x47#8, 0x82#8⟩ = .instr .ret := by decide
theorem test_decode_rejects_pattern_A1 : decode ⟨0xA1#8, 0x00#8, 0x00#8⟩ = .illegal 0xA1#8 := by decide
theorem test_decode_rejects_zero : decode ⟨0x00#8, 0x00#8, 0x00#8⟩ = .illegal 0x00#8 := by decide

/-! ### One step each (95_test_vectors.md) -/

/-- V9, V1. -/
theorem test_hlt_ignores_operand_bytes :
    look (fun t => (t.run, t.pc, t.x, t.out)) (step (start 0 [0x01, 0xFF, 0xFF] [] [])) =
      some (.halted, 0#9, State.reset.x, []) := by decide
/-- V4. -/
theorem test_hlt_at_254_faults :
    look (fun t => (t.run, t.pc)) (step (start 254 [0x01] [] [])) =
      some (.faulted .memOutOfBounds 256 254#9, 254#9) := by decide
/-- V13. -/
theorem test_ldi_sets_sp : look (fun t => (t.sp, t.pc)) (step (start 0 [0x82, 0x07, 0x10] [] [])) = some (0x10#8, 3#9) := by
  decide
/-- V14. -/
theorem test_ldi_bad_register :
    look (fun t => (t.run, t.x, t.pc)) (step (start 0 [0x82, 0x08, 0x01] [] [])) =
      some (.faulted .registerIndexOutOfRange 8 0#9, State.reset.x, 0#9) := by decide
/-- V17. -/
theorem test_prn_outputs_sp : look (fun t => (t.out, t.pc)) (step (start 0 [0x47, 0x07] [] [])) = some ([244#8], 2#9) := by
  decide
/-- V19. -/
theorem test_prn_bad_register :
    look (fun t => (t.run, t.out)) (step (start 0 [0x47, 0x09] [] [])) =
      some (.faulted .registerIndexOutOfRange 9 0#9, []) := by decide
/-- V27. -/
theorem test_mul_wraps :
    look (fun t => (t.reg 0, t.reg 1, t.pc)) (step (start 0 [0xA2, 0x00, 0x01] [(0, 255), (1, 255)] [])) =
      some (1#8, 255#8, 3#9) := by decide
/-- V29c. -/
theorem test_mul_reports_a_before_b :
    look (fun t => t.run) (step (start 0 [0xA2, 0x09, 0x08] [] [])) =
      some (.faulted .registerIndexOutOfRange 9 0#9) := by decide
/-- V20. -/
theorem test_add_wraps :
    look (fun t => (t.reg 2, t.reg 3, t.pc)) (step (start 0 [0xA0, 0x02, 0x03] [(2, 200), (3, 100)] [])) =
      some (44#8, 100#8, 3#9) := by decide
/-- V24. -/
theorem test_add_moves_sp : look (fun t => t.sp) (step (start 0 [0xA0, 0x07, 0x01] [(1, 0x0C)] [])) = some 0x00#8 := by
  decide
/-- V31. -/
theorem test_push_wraps :
    look (fun t => (t.cell 0xFF, t.sp, t.pc)) (step (start 0 [0x45, 0x00] [(0, 0x5A), (7, 0)] [])) =
      some (0x5A#8, 0xFF#8, 2#9) := by decide
/-- V32. -/
theorem test_push_r7_stores_decremented_sp :
    look (fun t => (t.cell 0xF3, t.sp)) (step (start 0 [0x45, 0x07] [] [])) = some (0xF3#8, 0xF3#8) := by decide
/-- V34. -/
theorem test_pop_wraps :
    look (fun t => (t.reg 2, t.sp, t.pc)) (step (start 0 [0x46, 0x02] [(7, 0xFF)] [(0xFF, 0x11)])) =
      some (0x11#8, 0x00#8, 2#9) := by decide
/-- V35. -/
theorem test_pop_r7_increments_the_popped_byte :
    look (fun t => t.sp) (step (start 0 [0x46, 0x07] [(7, 0xF3)] [(0xF3, 0x20)])) = some 0x21#8 := by decide
/-- V40. -/
theorem test_call_pushes_and_jumps :
    look (fun t => (t.sp, t.cell 0xF3, t.pc)) (step (start 6 [0x50, 0x01] [(1, 0x0B)] [])) =
      some (0xF3#8, 0x08#8, 0x0B#9) := by decide
/-- V42. -/
theorem test_call_r7_jumps_to_decremented_sp :
    look (fun t => (t.sp, t.cell 0xF3, t.pc)) (step (start 0 [0x50, 0x07] [] [])) =
      some (0xF3#8, 0x02#8, 0xF3#9) := by decide
/-- V41. -/
theorem test_ret_pops :
    look (fun t => (t.pc, t.sp)) (step (start 0 [0x11] [(7, 0xF3)] [(0xF3, 0x08)])) = some (0x08#9, 0xF4#8) := by decide
/-- V44. -/
theorem test_ret_wraps :
    look (fun t => (t.pc, t.sp)) (step (start 0 [0x11] [(7, 0xFF)] [(0xFF, 0x30)])) = some (0x30#9, 0x00#8) := by decide
/-- V5. -/
theorem test_illegal_opcode :
    look (fun t => (t.run, t.x, t.pc)) (step (start 0 [0xFF] [] [])) =
      some (.faulted .illegalInstruction 0xFF 0#9, State.reset.x, 0#9) := by decide
/-- V7. -/
theorem test_fetch_at_256 :
    look (fun t => t.run) (step (start 256 [] [] [])) = some (.faulted .memOutOfBounds 256 256#9) := by decide

/-! ### The host's side -/

/-- V51, from its last write on: the byte for address 256 faults, and a later `run` has no effect. -/
theorem test_overlong_load :
    (hostRun (loadFrom 256 [0#8] State.reset)).run = .faulted .memOutOfBounds 256 0#9 := by decide
/-- V52. -/
theorem test_load_refused_in_running : hostLoad [0x01#8] (start 0 [] [] []) = start 0 [] [] [] := by decide
/-- The program file's first token (W9) is LDI's opcode. -/
theorem test_assemble_ldi : assemble ['L', 'D', 'I', ' ', 'R', '0', ',', '8'] = some [0x82#8, 0x00#8, 0x08#8] := by decide
theorem test_assemble_hexadecimal :
    assemble ['L', 'D', 'I', ' ', 'R', '7', ',', ' ', '0', 'x', 'F', 'e'] = some [0x82#8, 0x07#8, 0xFE#8] := by decide
theorem test_assemble_refuses_r8 : assemble ['P', 'R', 'N', ' ', 'R', '8'] = none := by decide
/-- A word of the opcode table, placed after reset, is what the next step runs. -/
theorem test_withFetchWord_runs_hlt :
    look (fun t => t.run) (step (State.reset.withFetchWord 8 0x01)) = some .halted := by decide
theorem test_withFetchWord_runs_ldi :
    look (fun t => (t.reg 3, t.pc)) (step (State.reset.withFetchWord 24 0x2A0382)) = some (0x2A#8, 3#9) := by decide

/-! ### Witnesses: states and operands that meet the hypotheses of each statement -/

theorem witness_LoadWritesProgramFromAddressZero :
    State.reset.run = .idle ∧ (List.replicate 256 1#8).length ≤ 256 ∧ 256 < (List.replicate 257 1#8).length ∧
      ([] : List Byte).length ≤ 256 := by
  simp only [List.length_replicate]; decide
theorem witness_TransactionsAreAcceptedByRunState :
    State.reset.run = .idle ∧ (inRun .running).run ≠ .idle ∧ (inRun .halted).run ≠ .idle := by decide
theorem witness_BootFetchesFirstWindowAtResetVector : [0x82#8, 0x00#8, 0x08#8].length ≤ 256 := by decide
theorem witness_RunWithoutProgramStopsAtOnce : 256 < (List.replicate 257 0x01#8).length := by
  simp only [List.length_replicate]; decide
theorem witness_HaltedAndFaultedAreFinalUntilReset :
    (inRun .halted).ended = true ∧ (inRun .halted).run = .halted ∧
    (inRun (.faulted .illegalInstruction 0 0#9)).ended = true ∧
    (inRun (.faulted .illegalInstruction 0 0#9)).run ≠ .halted ∧ Transaction.run ≠ .reset := by decide
theorem witness_TraceShowsNextBytesOrAbsent :
    (State.reset.setPc 253#9).pc.toNat ≤ 253 ∧ 253 < (State.reset.setPc 254#9).pc.toNat ∧
    (State.reset.setPc 254#9).pc.toNat ≤ 254 ∧ 254 < (State.reset.setPc 255#9).pc.toNat ∧
    (State.reset.setPc 255#9).pc.toNat ≤ 255 ∧ 255 < (State.reset.setPc 256#9).pc.toNat := by decide
theorem witness_StatusReportsRunStateAndFaultCode :
    (inRun .idle).run = .idle ∧ (inRun .running).run = .running ∧ (inRun .halted).run = .halted ∧
    (inRun (.faulted .memOutOfBounds 256 254#9)).run = .faulted .memOutOfBounds 256 254#9 := by decide
theorem witness_DispatchDecodesExactlyTheNineOpcodes :
    (Window.mk 0xA1#8 0#8 0#8).op ∉ [0x01#8, 0x82#8, 0x47#8, 0xA2#8, 0xA0#8, 0x45#8, 0x46#8, 0x50#8, 0x11#8] := by decide
theorem witness_IllegalOpcodesAreThe247OfTheList :
    (start 253 [0xA3, 0, 0] [] []).run = .running ∧ (start 253 [0xA3, 0, 0] [] []).WindowIs ⟨0xA3#8, 0#8, 0#8⟩ ∧
    decode ⟨0xA3#8, 0#8, 0#8⟩ = .illegal 0xA3#8 ∧
    (start 253 [] [] []).pc.toNat + 2 ≤ 255 ∧ (start 253 [] [] []).cell 253 = 0x00#8 :=
  ⟨by decide, ⟨by decide, by decide, by decide, by decide⟩, by decide, by decide, by decide⟩
theorem witness_EncodeAndDecodeAgree : decode ⟨0x47#8, 0x07#8, 0xFF#8⟩ = .instr (.prn 7#8) := by decide
theorem witness_LoadedImageDecodesToItsInstructions :
    (encodeProgram ([.ldi 0#8 8#8] ++ .prn 0#8 :: [.hlt])).length ≤ 256 ∧
    (encodeProgram [.ldi 0#8 8#8]).length + 2 ≤ 255 := by decide
theorem witness_AssemblerReadsBackWrittenInstructions : (Instr.ldi 7#8 255#8).wellFormed = true := by decide
theorem witness_StepRunsTheDecodedInstruction :
    (start 253 [0x47, 0x00] [] []).run = .running ∧ (start 253 [0x47, 0x00] [] []).WindowIs ⟨0x47#8, 0#8, 0#8⟩ ∧
    decode ⟨0x47#8, 0#8, 0#8⟩ = .instr (.prn 0#8) ∧
    (start 0 [0xFF] [] []).run = .running ∧ (start 0 [0xFF] [] []).WindowIs ⟨0xFF#8, 0#8, 0#8⟩ ∧
    decode ⟨0xFF#8, 0#8, 0#8⟩ = .illegal 0xFF#8 :=
  ⟨by decide, ⟨by decide, by decide, by decide, by decide⟩, by decide, by decide,
    ⟨by decide, by decide, by decide, by decide⟩, by decide⟩
theorem witness_FetchFaultsExactlyAboveAddress253 :
    (start 256 [] [] []).run = .running ∧ (start 256 [] [] []).pc.toNat ≤ 256 ∧ 254 ≤ (start 256 [] [] []).pc.toNat ∧
    254 ≤ (start 254 [] [] []).pc.toNat ∧ (start 253 [] [] []).pc.toNat ≤ 253 := by decide
theorem witness_HaltNeedsItsWholeWindowInMemory :
    (start 253 [0x01] [] []).run = .running ∧ (start 253 [0x01] [] []).cell 253 = 0x01#8 ∧
    (start 253 [0x01] [] []).pc.toNat ≤ 253 ∧
    (start 254 [0x01] [] []).cell 254 = 0x01#8 ∧ (start 254 [0x01] [] []).pc.toNat = 254 ∧
    (start 255 [0x01] [] []).cell 255 = 0x01#8 ∧ (start 255 [0x01] [] []).pc.toNat = 255 := by decide
theorem witness_BadRegisterOperandRaisesElseCompletes :
    8 ≤ (8#8 : Byte).toNat ∧ 8 ≤ (255#8 : Byte).toNat ∧ (7#8 : Byte).toNat ≤ 7 ∧
    (Instr.mul 7#8 7#8).wellFormed = true := by decide
theorem witness_FirstFaultInPriorityOrderIsRaised :
    ((start 254 [0x01] [] []).run = .running ∧ 254 ≤ (start 254 [0x01] [] []).pc.toNat ∧
      (start 254 [0x01] [] []).pc.toNat ≤ 256) ∧
    (start 0 [0x01, 0xFF, 0xFF] [] []).WindowIs ⟨0x01#8, 0xFF#8, 0xFF#8⟩ ∧
    (start 0 [0x83, 0xFF, 0xFF] [] []).WindowIs ⟨0x83#8, 0xFF#8, 0xFF#8⟩ ∧
    (start 0 [0xA2, 0x08, 0x09] [] []).WindowIs ⟨0xA2#8, 0x08#8, 0x09#8⟩ ∧
    (start 0 [0xA0, 0x07, 0x08] [] []).WindowIs ⟨0xA0#8, 0x07#8, 0x08#8⟩ :=
  ⟨by decide, ⟨by decide, by decide, by decide, by decide⟩, ⟨by decide, by decide, by decide, by decide⟩,
    ⟨by decide, by decide, by decide, by decide⟩, ⟨by decide, by decide, by decide, by decide⟩⟩
theorem witness_FaultsCommitNothingOfTheInstruction :
    look (fun t => t.run) (step (start 0 [0x45, 0x08] [] [])) = some (.faulted .registerIndexOutOfRange 8 0#9) := by decide
theorem witness_RunningStepsHaltExactlyOnHlt :
    (start 0 [0x01] [] []).run = .running ∧ look (fun t => t.run) (step (start 0 [0x01] [] [])) = some .halted ∧
    look (fun t => t.run) (step (start 0 [0x11] [] [])) = some .running := by decide
theorem witness_StepCompletesExactlyWhenProgramIsLegal :
    (start 0 [0x45, 0x07] [] []).run = .running ∧ (start 0 [0x45, 0x07] [] []).CanComplete :=
  ⟨by decide, ⟨0x45#8, 7#8, 0#8⟩, .push 7#8, ⟨by decide, by decide, by decide, by decide⟩, by decide, by decide⟩
theorem witness_OnlyTheFetchCanLeaveMemory :
    (start 255 [0x45, 0x00] [] []).run = .running ∧ (start 255 [] [] []).pc.toNat ≤ 256 := by decide
theorem witness_UnsupportedAluSelectRaisesAndIsUnreachable :
    Names 7#8 7 ∧ Names 0#8 0 ∧ look (fun t => t.pc) (step (start 0 [0xA0, 0x00, 0x00] [] [])) = some 3#9 := by decide
theorem witness_HltHaltsAndChangesNothingElse :
    (start 254 [0x01] [] []).run = .running ∧ (start 254 [0x01] [] []).pc.toNat = 254 ∧
    (start 254 [0x01] [] []).cell 254 = 0x01#8 ∧ (start 255 [0x01] [] []).pc.toNat = 255 ∧
    (start 255 [0x01] [] []).cell 255 = 0x01#8 := by decide
theorem witness_LdiWritesImmediateToRegister : Names 7#8 7 ∧ (start 253 [0x82, 7, 255] [] []).pc.toNat + 2 ≤ 255 := by decide
theorem witness_PrnDeliversOneEvent : Names 0#8 0 ∧ (start 253 [0x47, 0] [] []).pc.toNat + 2 ≤ 255 := by decide
theorem witness_MulKeepsLowByteOfProduct :
    Names 2#8 2 ∧ Names 3#8 3 ∧ (start 0 [0xA2, 2, 3] [(2, 255), (3, 255)] []).pc.toNat + 2 ≤ 255 := by decide
theorem witness_AddKeepsLowByteOfSum :
    Names 7#8 7 ∧ Names 7#8 7 ∧ (start 0 [0xA0, 7, 7] [] []).pc.toNat + 2 ≤ 255 := by decide
theorem witness_PushStoresBelowTheStackTop :
    Names 7#8 7 ∧ Names 0#8 0 ∧ (start 0 [0x45, 0] [(7, 0)] []).pc.toNat + 2 ≤ 255 := by decide
theorem witness_PopLoadsFromTheStackTop :
    Names 7#8 7 ∧ Names 0#8 0 ∧ (0 : Fin 8) ≠ 7 ∧ (start 0 [0x46, 0] [(7, 255)] []).pc.toNat + 2 ≤ 255 := by decide
theorem witness_CallPushesReturnAddressAndJumps :
    Names 7#8 7 ∧ Names 1#8 1 ∧ (start 253 [0x50, 1] [(7, 0)] []).pc.toNat + 2 ≤ 255 := by decide
theorem witness_RetPopsTheReturnAddress :
    254 ≤ ((start 0 [0x11] [(7, 0xF3)] [(0xF3, 0xFE)]).cell (start 0 [0x11] [(7, 0xF3)] [(0xF3, 0xFE)]).sp.toNat).toNat ∧
    (start 0 [0x11] [(7, 0xF3)] [(0xF3, 0xFE)]).run = .running := by decide
theorem witness_AluWritesItsDestinationOnly :
    Names 2#8 2 ∧ Names 3#8 3 ∧ 8 ≤ (9#8 : Byte).toNat ∧ (7#8 : Byte).toNat ≤ 7 ∧ 8 ≤ (8#8 : Byte).toNat := by decide
theorem witness_MemoryAccessTouchesOneCellOrRaises : 255 < 256 ∧ 255 ≤ 255 ∧ 0 ≤ 255 := by decide
theorem witness_EachInstructionSetsPcByTheTable :
    (start 253 [0x82, 7, 9] [] []).WindowIs ⟨0x82#8, 7#8, 9#8⟩ ∧
    look (fun t => t.isFaulted) (step (start 253 [0x82, 7, 9] [] [])) = some false ∧
    (start 0 [0x01] [] []).WindowIs ⟨0x01#8, 0#8, 0#8⟩ ∧
    look (fun t => t.isFaulted) (step (start 0 [0x01] [] [])) = some false ∧
    (start 0 [0x46, 7] [] []).WindowIs ⟨0x46#8, 7#8, 0#8⟩ ∧
    look (fun t => t.isFaulted) (step (start 0 [0x46, 7] [] [])) = some false ∧
    (start 0 [0x50, 7] [] []).WindowIs ⟨0x50#8, 7#8, 0#8⟩ ∧
    look (fun t => t.isFaulted) (step (start 0 [0x50, 7] [] [])) = some false ∧
    (start 0 [0x11] [] []).WindowIs ⟨0x11#8, 0#8, 0#8⟩ ∧
    look (fun t => t.isFaulted) (step (start 0 [0x11] [] [])) = some false :=
  ⟨⟨by decide, by decide, by decide, by decide⟩, by decide, ⟨by decide, by decide, by decide, by decide⟩, by decide,
    ⟨by decide, by decide, by decide, by decide⟩, by decide, ⟨by decide, by decide, by decide, by decide⟩, by decide,
    ⟨by decide, by decide, by decide, by decide⟩, by decide⟩
theorem witness_OnlyPushAndCallWriteMemory :
    look (fun t => decide (t.cell 0xF3 ≠ (start 0 [0x45, 0] [(0, 5)] []).cell 0xF3)) (step (start 0 [0x45, 0] [(0, 5)] [])) =
      some true := by decide
theorem witness_RegistersChangeOnlyByTheTable :
    look (fun t => decide (t.reg 1 ≠ (start 0 [0x82, 1, 5] [] []).reg 1)) (step (start 0 [0x82, 1, 5] [] [])) = some true ∧
    look (fun t => decide (t.reg 7 ≠ (start 0 [0x11] [] []).reg 7)) (step (start 0 [0x11] [] [])) = some true := by decide
theorem witness_OutputEventsComeFromPrnOnly :
    look (fun t => t.out) (step (start 0 [0x47, 0] [(0, 72)] [])) = some [72#8] ∧
    look (fun t => t.out) (step (start 0 [0x47, 8] [(0, 72)] [])) = some [] := by decide
theorem witness_OutputRecordNeverInfluencesAStep :
    look (fun t => t.out) (step (start 0 [0x47, 0] [(0, 72)] [])) = some [72#8] ∧
    look (fun t => t.out) (step (start 0 [0x01] [] [])) = some [] := by decide
theorem witness_PushIntoItsOwnWindowIsSeenByTheNextFetchOnly :
    (start 3 [0x45, 0x00] [(0, 9), (7, 5)] []).run = .running ∧
    (start 3 [0x45, 0x00] [(0, 9), (7, 5)] []).WindowIs ⟨0x45#8, 0#8, 0#8⟩ ∧ Names 0#8 0 ∧
    (start 3 [0x45, 0x00] [(0, 9), (7, 4)] []).spDecrement.sp.toNat = 3 ∧
    (start 3 [0x45, 0x00] [(0, 9), (7, 5)] []).spDecrement.sp.toNat = 3 + 1 ∧
    (start 3 [0x45, 0x00] [(0, 9), (7, 6)] []).spDecrement.sp.toNat = 3 + 2 :=
  ⟨by decide, ⟨by decide, by decide, by decide, by decide⟩, by decide, by decide, by decide, by decide⟩
theorem witness_PushThenPopRestoresRegisterAndSp :
    Names 7#8 7 ∧ Names 0#8 0 ∧
    look (fun t => (t.sp, t.cell t.sp.toNat)) (exec (.push 0#8) (start 0 [0x45, 0] [(0, 5)] [])) =
      some ((start 9 [0x46, 0] [(0, 77), (7, 0xF3)] [(0xF3, 5)]).sp,
        (start 9 [0x46, 0] [(0, 77), (7, 0xF3)] [(0xF3, 5)]).cell 0xF3) := by decide
theorem witness_CallThenRetReturnsPastTheCall :
    Names 1#8 1 ∧ (start 253 [0x50, 1] [(1, 11)] []).pc.toNat + 2 ≤ 255 ∧
    look (fun t => (t.sp, t.cell t.sp.toNat)) (exec (.call 1#8) (start 253 [0x50, 1] [(1, 11)] [])) =
      some ((start 11 [0x11] [(7, 0xF3)] [(0xF3, 255)]).sp,
        (start 11 [0x11] [(7, 0xF3)] [(0xF3, 255)]).cell 0xF3) := by decide
theorem witness_EndedRunStaysAtItsYield :
    (runFor 1 (start 0 [0x01] [] [])).ended = true ∧ (inRun .halted).run = .halted ∧
    (inRun (.faulted .illegalInstruction 0 0#9)).isFaulted = true := by decide
theorem witness_CanonicalMemoriesThatReadAlikeAreEqual :
    Memory.wf (start 0 [0x82, 0x00, 0x08] [] []).mem ∧
    Memory.wf (Memory.write (start 0 [0x82, 0x05, 0x08] [] []).mem 1 0#8) ∧
    Memory.write (start 0 [0x82, 0x05, 0x08] [] []).mem 1 0#8 = (start 0 [0x82, 0x00, 0x08] [] []).mem := by decide
theorem witness_EveryStepKeepsTheInvariant :
    (start 253 [0x82, 0x00, 0x08] [] []).Inv ∧
    look (fun t => t.pc) (step (start 253 [0x82, 0x00, 0x08] [] [])) = some 256#9 :=
  ⟨⟨by decide, by decide, trivial, by decide⟩, by decide⟩
theorem witness_EveryTransactionKeepsTheInvariant : (inRun .halted).Inv :=
  ⟨by decide, by decide, trivial, by decide⟩
theorem witness_CallIntoItsOwnWindowIsSeenByTheNextFetchOnly :
    (start 3 [0x50, 0x01] [(7, 5)] []).run = .running ∧
    (start 3 [0x50, 0x01] [(7, 5)] []).WindowIs ⟨0x50#8, 1#8, 0#8⟩ ∧ Names 1#8 1 ∧
    (start 3 [0x50, 0x01] [(7, 4)] []).spDecrement.sp.toNat = 3 ∧
    (start 3 [0x50, 0x01] [(7, 5)] []).spDecrement.sp.toNat = 3 + 1 ∧
    (start 3 [0x50, 0x01] [(7, 6)] []).spDecrement.sp.toNat = 3 + 2 :=
  ⟨by decide, ⟨by decide, by decide, by decide, by decide⟩, by decide, by decide, by decide, by decide⟩
/-- A booted PRN R7, HLT on a machine whose record was not empty: the run's own event (V17) is what it yields. -/
theorem witness_YieldedEventsAreTheRunsOwn :
    (runFor 2 (boot [0x47#8, 0x07#8, 0x01#8] ((inRun .halted).emit 9#8))).yield.map (fun y => y.events) = some [244#8] ∧
    runEvents 2 (boot [0x47#8, 0x07#8, 0x01#8] ((inRun .halted).emit 9#8)) = [244#8] ∧
    (hostLoad [0x01#8] State.reset).Inv ∧ (hostLoad [0x01#8] State.reset).run = .idle ∧
    ((runFor 1 (transact .run (hostLoad [0x01#8] State.reset))).yield.map (fun y => y.events)) = some [] :=
  ⟨by decide, by decide, ⟨by decide, by decide, trivial, by decide⟩, by decide, by decide⟩

end Sys2Proof.Tests.Slice0
end

section
/-! PROOFS. The state after reset and the memory's canonical form. -/

namespace Sys2Proof.Machine

/-! ### The constructed Machine (R34) -/

/-- Construction clears every register but `x[7]`, which takes `SP_INIT` (R34, D21). -/
@[simp] theorem State.constructed_reg (spInit : Byte) (r : Fin 8) :
    (State.constructed spInit).reg r = if r = 7 then spInit else 0#8 := by
  fin_cases r <;> rfl

@[simp] theorem State.constructed_sp (spInit : Byte) : (State.constructed spInit).sp = spInit := rfl
@[simp] theorem State.constructed_pc (spInit : Byte) : (State.constructed spInit).pc = 0#9 := rfl
@[simp] theorem State.constructed_run (spInit : Byte) : (State.constructed spInit).run = .idle := rfl
@[simp] theorem State.constructed_cell (spInit : Byte) (addr : Nat) : (State.constructed spInit).cell addr = 0#8 := rfl

/-- `SP_INIT` is only what is left in `x[7]` (R34, D21). -/
theorem State.constructed_eq_setReg (spInit : Byte) : State.constructed spInit = State.reset.setReg 7 spInit := rfl

/-- The constructed Machine meets the invariant: memory is empty and `pc` is 0 (R34). -/
theorem State.constructed_inv (spInit : Byte) : (State.constructed spInit).Inv where
  memory := Memory.wf_nil
  pcBound := by simp
  runLegal := trivial
  idleSilent := fun _ => rfl

/-- Settles O1: `State.reset` and the `reset` transaction are both the Machine constructed with 0xF4. -/
theorem resetGivesConstructionState : Obligations.ResetGivesConstructionState := by
  refine ⟨fun s t ht => ?_, fun spInit => ⟨State.constructed_sp spInit, State.constructed_eq_setReg spInit⟩⟩
  obtain rfl : t = State.constructed 0xF4#8 := by rcases ht with rfl | rfl <;> rfl
  refine ⟨fun r hr => ?_, ?_, ?_, ?_, ?_⟩
  · simp [hr]
  all_goals simp

/-- Settles O49: reset is construction with one value of `SP_INIT`. -/
theorem resetStateMeetsTheInvariant : Obligations.ResetStateMeetsTheInvariant :=
  ⟨State.constructed_inv Config.spInit, State.constructed_inv⟩

/-! ### Canonical memories -/

namespace Memory

/-- An address that reads as anything but its reset contents is listed, with the byte it reads as. -/
theorem mem_of_read_ne {m : Memory} {addr : Nat} (h : read m addr ≠ Config.memReset) : (addr, read m addr) ∈ m := by
  induction m with
  | nil => exact absurd rfl h
  | cons c m ih =>
    by_cases hc : c.1 = addr
    · subst hc; simp [read]
    · simp only [read, if_neg hc] at h ⊢
      exact List.mem_cons_of_mem _ (ih h)

/-- Where addresses rise, no cell shadows another: each listed cell is what its address reads as. -/
theorem read_of_mem {m : Memory} (h : m.Pairwise (fun c d => c.1 < d.1)) {c : Host.Cell} (hc : c ∈ m) :
    read m c.1 = c.2 := by
  induction m with
  | nil => simp at hc
  | cons d m ih =>
    obtain ⟨hd, hm⟩ := List.pairwise_cons.mp h
    rcases List.mem_cons.mp hc with rfl | hc
    · simp [read]
    · simp [read, (hd c hc).ne, ih hm hc]

/-- A canonical memory lists exactly the cells that do not hold their reset contents. -/
theorem mem_iff_read {m : Memory} (h : wf m) (c : Host.Cell) :
    c ∈ m ↔ c.2 ≠ Config.memReset ∧ read m c.1 = c.2 := by
  constructor
  · exact fun hc => ⟨(h.2 c hc).2, read_of_mem h.1 hc⟩
  · rintro ⟨hne, hread⟩
    simpa [hread] using mem_of_read_ne (m := m) (addr := c.1) (hread ▸ hne)

/-- Two lists of cells with rising addresses and the same members are one list. -/
theorem eq_of_mem_iff {m m' : Memory} (h : m.Pairwise (fun c d => c.1 < d.1)) (h' : m'.Pairwise (fun c d => c.1 < d.1))
    (hmem : ∀ c, c ∈ m ↔ c ∈ m') : m = m' := by
  have : Std.Irrefl (fun c d : Host.Cell => c.1 < d.1) := ⟨fun c => Nat.lt_irrefl c.1⟩
  have : Std.Antisymm (fun c d : Host.Cell => c.1 < d.1) := ⟨fun c d hcd hdc => absurd hcd hdc.asymm⟩
  exact h.eq_of_mem_iff h' hmem

end Memory

/-- Settles O48: reading alike fixes which cells are listed, and the order of the addresses fixes the list. -/
theorem canonicalMemoriesThatReadAlikeAreEqual : Obligations.CanonicalMemoriesThatReadAlikeAreEqual := by
  intro m m' h h' hread
  refine Memory.eq_of_mem_iff h.1 h'.1 fun c => ?_
  rw [Memory.mem_iff_read h, Memory.mem_iff_read h', hread]

end Sys2Proof.Machine
end

section
/-! PROOFS. What a completed step is, by the opcode of its window, and the rules that follow. -/

namespace Sys2Proof.Machine

/-! ### What PUSH, POP and CALL leave -/

@[simp] theorem pushed_pc (s : State) (r : Fin 8) : (pushed s r).pc = s.pc + 2#9 := rfl
@[simp] theorem pushed_run (s : State) (r : Fin 8) : (pushed s r).run = s.run := rfl
@[simp] theorem pushed_mem (s : State) (r : Fin 8) :
    (pushed s r).mem = Memory.write s.mem s.spDecrement.sp.toNat (s.spDecrement.reg r) := rfl
@[simp] theorem pushed_reg (s : State) (r j : Fin 8) : (pushed s r).reg j = s.spDecrement.reg j := rfl

@[simp] theorem popped_pc (s : State) (r : Fin 8) : (popped s r).pc = s.pc + 2#9 := rfl
@[simp] theorem popped_run (s : State) (r : Fin 8) : (popped s r).run = s.run := rfl
@[simp] theorem popped_mem (s : State) (r : Fin 8) : (popped s r).mem = s.mem := rfl

/-- POP leaves every register alone but its operand and SP (R142). -/
theorem popped_reg_of_ne (s : State) {r j : Fin 8} (hr : j ≠ r) (hsp : j ≠ 7) : (popped s r).reg j = s.reg j := by
  simp [popped, hr, hsp]

@[simp] theorem called_pc (s : State) (r : Fin 8) : (called s r).pc = zextPc (s.spDecrement.reg r) := rfl
@[simp] theorem called_run (s : State) (r : Fin 8) : (called s r).run = s.run := rfl
@[simp] theorem called_mem (s : State) (r : Fin 8) :
    (called s r).mem = Memory.write s.mem s.spDecrement.sp.toNat (returnAddress s) := rfl
@[simp] theorem called_reg (s : State) (r j : Fin 8) : (called s r).reg j = s.spDecrement.reg j := rfl

/-! ### Completion of an instruction, by its opcode -/

/-- From `s`, the instruction whose window is `w` completes in this state: one case per opcode (R64), with the register its
operand names. -/
inductive Completes (s : State) (w : Window) : State → Prop where
  | hlt (hop : w.op = 0x01#8) : Completes s w s.halt
  | ldi {r : Fin 8} (hop : w.op = 0x82#8) (ha : Names w.a r) : Completes s w ((s.setReg r w.b).advancePc 3)
  | prn {r : Fin 8} (hop : w.op = 0x47#8) (ha : Names w.a r) : Completes s w ((s.emit (s.reg r)).advancePc 2)
  | mul {ra rb : Fin 8} (hop : w.op = 0xA2#8) (ha : Names w.a ra) (hb : Names w.b rb) :
      Completes s w ((s.setReg ra (narrow ((s.reg ra).toNat * (s.reg rb).toNat))).advancePc 3)
  | add {ra rb : Fin 8} (hop : w.op = 0xA0#8) (ha : Names w.a ra) (hb : Names w.b rb) :
      Completes s w ((s.setReg ra (narrow ((s.reg ra).toNat + (s.reg rb).toNat))).advancePc 3)
  | push {r : Fin 8} (hop : w.op = 0x45#8) (ha : Names w.a r) : Completes s w (pushed s r)
  | pop {r : Fin 8} (hop : w.op = 0x46#8) (ha : Names w.a r) : Completes s w (popped s r)
  | call {r : Fin 8} (hop : w.op = 0x50#8) (ha : Names w.a r) : Completes s w (called s r)
  | ret (hop : w.op = 0x11#8) : Completes s w (s.setPc (zextPc (s.cell s.sp.toNat))).spIncrement

/-- An instruction that its handler completes, completes as its opcode says. -/
theorem completes_of_handler {s t : State} {w : Window} {i : Instr} (hd : decode w = .instr i) (h : handler i s = .ok t) :
    Completes s w t := by
  have hi : ∀ {j}, decode w = .instr j → i = j := fun hj => Decoded.instr.inj (hd.symm.trans hj)
  rcases decode_cases w with ⟨hop, hj⟩ | ⟨hop, hj⟩ | ⟨hop, hj⟩ | ⟨hop, hj⟩ | ⟨hop, hj⟩ | ⟨hop, hj⟩ | ⟨hop, hj⟩ |
    ⟨hop, hj⟩ | ⟨hop, hj⟩ | ⟨-, hj⟩
  · obtain rfl : t = s.halt := by simpa [hi hj] using handler_cases h
    exact .hlt hop
  · obtain ⟨r, ha, rfl⟩ : ∃ r, Names w.a r ∧ t = _ := by simpa [hi hj] using handler_cases h
    exact .ldi hop ha
  · obtain ⟨r, ha, rfl⟩ : ∃ r, Names w.a r ∧ t = _ := by simpa [hi hj] using handler_cases h
    exact .prn hop ha
  · obtain ⟨ra, ha, rb, hb, rfl⟩ : ∃ ra, Names w.a ra ∧ ∃ rb, Names w.b rb ∧ t = _ := by
      simpa [hi hj] using handler_cases h
    exact .mul hop ha hb
  · obtain ⟨ra, ha, rb, hb, rfl⟩ : ∃ ra, Names w.a ra ∧ ∃ rb, Names w.b rb ∧ t = _ := by
      simpa [hi hj] using handler_cases h
    exact .add hop ha hb
  · obtain ⟨r, ha, rfl⟩ : ∃ r, Names w.a r ∧ t = _ := by simpa [hi hj] using handler_cases h
    exact .push hop ha
  · obtain ⟨r, ha, rfl⟩ : ∃ r, Names w.a r ∧ t = _ := by simpa [hi hj] using handler_cases h
    exact .pop hop ha
  · obtain ⟨r, ha, rfl⟩ : ∃ r, Names w.a r ∧ t = _ := by simpa [hi hj] using handler_cases h
    exact .call hop ha
  · obtain rfl : t = _ := by simpa [hi hj] using handler_cases h
    exact .ret hop
  · simp [hd] at hj

/-! ### Every step faults legally or completes -/

/-- A fetch or decode that raises has a legal reason, for every `pc` a run can reach (R26, R81, R182). -/
theorem fetchDecode_error_legal {s : State} {e : Raise} (hpc : s.pc.toNat ≤ 256) (h : fetchDecode s = .error e) :
    e.kind.legalInfo e.info := by
  rcases fetchDecode_cases s with ⟨w, i, -, -, hf⟩ | ⟨w, -, hd, hf⟩ | ⟨addr, -, -, haddr, hf⟩
  · simp [hf] at h
  · obtain rfl := Except.error.inj (hf.symm.trans h)
    exact ⟨w, rfl, hd⟩
  · obtain rfl := Except.error.inj (hf.symm.trans h)
    exact haddr hpc

/-- An instruction that raises does so for an operand byte of 8 to 255 (R184). -/
theorem handler_error_legal {i : Instr} {s : State} {e : Raise} (h : handler i s = .error e) :
    e.kind.legalInfo e.info := by
  obtain ⟨b, -, hb, rfl⟩ := handler_error h
  exact ⟨hb, Nat.le_of_lt_succ b.isLt⟩

/-- A step is taken in Running only; it enters Faulted for a legal reason, or completes the instruction of its window. -/
theorem step_faults_or_completes {s t : State} (h : step s = .next t) :
    s.run = .running ∧
    ((∃ e, t = s.enterFault e ∧ (s.pc.toNat ≤ 256 → e.kind.legalInfo e.info)) ∨
     (∃ w, s.WindowIs w ∧ Completes s w t)) := by
  obtain ⟨hrun, ⟨e, he, ht⟩ | ⟨w, i, e, -, -, he, ht⟩ | ⟨w, i, hw, hd, hh⟩⟩ := step_cases h
  · exact ⟨hrun, .inl ⟨e, ht, fun hpc => fetchDecode_error_legal hpc he⟩⟩
  · exact ⟨hrun, .inl ⟨e, ht, fun _ => handler_error_legal he⟩⟩
  · exact ⟨hrun, .inr ⟨w, hw, completes_of_handler hd hh⟩⟩

@[simp] theorem State.enterFault_isFaulted (s : State) (e : Raise) : (s.enterFault e).isFaulted = true := rfl

/-- A step that does not end in Faulted completes the instruction of the window at `pc`. -/
theorem completes_of_step {s t : State} {w : Window} (hw : s.WindowIs w) (h : step s = .next t)
    (hok : t.isFaulted = false) : Completes s w t := by
  obtain ⟨-, ⟨e, rfl, -⟩ | ⟨w', hw', hc⟩⟩ := step_faults_or_completes h
  · simp at hok
  · rwa [hw.eq_windowAt, ← hw'.eq_windowAt]

/-! ### The rules of `pc` and of the registers -/

/-- A completed instruction sets `pc` by the table (R25), the advance being exact because its window lies in memory (R26). -/
theorem Completes.pc_table {s t : State} {w : Window} (h : Completes s w t) (hmem : s.pc.toNat + 2 ≤ 255) :
    (w.op = 0x01#8 → t.pc = s.pc) ∧
    (w.op ∈ [0x82#8, 0xA2#8, 0xA0#8] → t.pc.toNat = s.pc.toNat + 3) ∧
    (w.op ∈ [0x47#8, 0x45#8, 0x46#8] → t.pc.toNat = s.pc.toNat + 2) ∧
    (w.op = 0x50#8 → ∃ r, Names w.a r ∧ t.pc.toNat = (s.spDecrement.reg r).toNat) ∧
    (w.op = 0x11#8 → t.pc.toNat = (s.cell s.sp.toNat).toNat) := by
  have hpc2 : (s.pc + 2#9).toNat = s.pc.toNat + 2 := s.advancePc_toNat 2 (by omega)
  have hpc3 : (s.pc + 3#9).toNat = s.pc.toNat + 3 := s.advancePc_toNat 3 (by omega)
  cases h with
  | hlt hop => simp [hop]
  | ldi hop ha => simp [hop, hpc3]
  | prn hop ha => simp [hop, hpc2]
  | mul hop ha hb => simp [hop, hpc3]
  | add hop ha hb => simp [hop, hpc3]
  | push hop ha => simp [hop, hpc2]
  | pop hop ha => simp [hop, hpc2]
  | call hop ha => simpa [hop] using ⟨_, ha, rfl⟩
  | ret hop => simp [hop]

/-- Settles O39: a step that does not fault completes its window's instruction, which sets `pc` by the table. -/
theorem eachInstructionSetsPcByTheTable : Obligations.EachInstructionSetsPcByTheTable :=
  fun _ _ _ hw hstep hok => (completes_of_step hw hstep hok).pc_table hw.inMemory

/-- A completed instruction writes no register but the one its row of the table of R20 names. -/
theorem Completes.reg_table {s t : State} {w : Window} (h : Completes s w t) {j : Fin 8} (hj : t.reg j ≠ s.reg j) :
    (w.op ∈ [0x82#8, 0xA0#8, 0xA2#8, 0x46#8] ∧ Names w.a j) ∨
    (w.op ∈ [0x45#8, 0x46#8, 0x50#8, 0x11#8] ∧ j = 7) := by
  cases h with
  | hlt hop | prn hop ha => simp at hj
  | @ldi r hop ha | @mul r _ hop ha _ | @add r _ hop ha _ =>
    obtain rfl : j = r := by by_contra hne; simp [hne] at hj
    exact .inl ⟨by simp [hop], ha⟩
  | push hop ha | call hop ha | ret hop =>
    have hsp : j = 7 := by by_contra hne; simp [hne] at hj
    exact .inr ⟨by simp [hop], hsp⟩
  | @pop r hop ha =>
    by_cases hsp : j = 7
    · exact .inr ⟨by simp [hop], hsp⟩
    · obtain rfl : j = r := by by_contra hne; exact hj (popped_reg_of_ne s hne hsp)
      exact .inl ⟨by simp [hop], ha⟩

/-- Settles O41: a fault writes no register, and a completed instruction only those of the table. -/
theorem registersChangeOnlyByTheTable : Obligations.RegistersChangeOnlyByTheTable := by
  intro s t j hstep hj
  obtain ⟨-, ⟨e, rfl, -⟩ | ⟨w, hw, hc⟩⟩ := step_faults_or_completes hstep
  · exact absurd (State.enterFault_reg s e j) hj
  · exact ⟨w, hw, hc.reg_table hj⟩

/-! ### The invariant of the reachable states -/

/-- A completed instruction keeps `pc` at most 256, which only an advance by 3 from 253 reaches (R26). -/
theorem Completes.pc_le {s t : State} {w : Window} (h : Completes s w t) (hmem : s.pc.toNat + 2 ≤ 255) :
    t.pc.toNat ≤ 256 := by
  obtain ⟨hhlt, hthree, htwo, hcall, hret⟩ := h.pc_table hmem
  cases h with
  | hlt hop => rw [hhlt hop]; omega
  | ldi hop | mul hop | add hop => rw [hthree (by simp [hop])]; omega
  | prn hop | push hop | pop hop => rw [htwo (by simp [hop])]; omega
  | call hop =>
    obtain ⟨r, -, hr⟩ := hcall hop
    rw [hr]; exact (s.spDecrement.reg r).isLt.le
  | ret hop => rw [hret hop]; exact (s.cell s.sp.toNat).isLt.le

/-- A completed instruction keeps memory canonical: PUSH and CALL write a cell of a byte's address, the others none. -/
theorem Completes.memory_wf {s t : State} {w : Window} (h : Completes s w t) (hs : Memory.wf s.mem) :
    Memory.wf t.mem := by
  cases h with
  | hlt | ldi | prn | mul | add | pop | ret => exact hs
  | push | call => exact Memory.wf_write hs s.spDecrement.sp.isLt _

/-- A completed instruction leaves the run state as it was, or Halted (R86). -/
theorem Completes.run_eq_or_halted {s t : State} {w : Window} (h : Completes s w t) :
    t.run = s.run ∨ t.run = .halted := by
  cases h with
  | hlt => exact .inr rfl
  | ldi | prn | mul | add | push | pop | call | ret => exact .inl rfl

/-- A completed instruction keeps the invariant: it ends in Running or Halted, of which the invariant asks nothing more. -/
theorem Completes.inv {s t : State} {w : Window} (h : Completes s w t) (hw : s.WindowIs w) (hrun : s.run = .running)
    (hs : s.Inv) : t.Inv := by
  have hrun' : t.run = .running ∨ t.run = .halted := hrun ▸ h.run_eq_or_halted
  refine ⟨h.memory_wf hs.memory, h.pc_le hw.inMemory, ?_, fun hidle => ?_⟩
  · rcases hrun' with hr | hr <;> simp [State.runLegal, hr]
  · simp [hidle] at hrun'

/-- Fault entry for a legal reason keeps the invariant: it keeps memory and `pc`, and takes `pc` as the fault's address (R186). -/
theorem State.Inv.enterFault {s : State} (hs : s.Inv) {e : Raise} (he : e.kind.legalInfo e.info) : (s.enterFault e).Inv where
  memory := hs.memory
  pcBound := hs.pcBound
  runLegal := ⟨he, rfl⟩
  idleSilent := fun hidle => by simp at hidle

/-- Settles O50: a step faults for a legal reason or completes its window's instruction, and both keep the invariant. -/
theorem everyStepKeepsTheInvariant : Obligations.EveryStepKeepsTheInvariant := by
  intro s t hs hstep
  obtain ⟨hrun, ⟨e, rfl, hlegal⟩ | ⟨w, hw, hc⟩⟩ := step_faults_or_completes hstep
  · exact hs.enterFault (hlegal hs.pcBound)
  · exact hc.inv hw hrun hs

end Sys2Proof.Machine
end

section
/-! PROOFS. The rules of memory: what an access, a fetch and a step can do to it (20_memory.md). -/

namespace Sys2Proof.Machine

/-! ### One access, and the cells that PUSH and CALL leave -/

/-- Settles O38: above 255 both accesses raise; below, a write is one `setCell`, which is read back at its own address only. -/
theorem memoryAccessTouchesOneCellOrRaises : Obligations.MemoryAccessTouchesOneCellOrRaises := by
  intro s addr v
  refine ⟨fun h => ⟨memRead_of_ge h s, memWrite_of_ge h v s⟩, fun h => ?_⟩
  have hlt : addr < 256 := by omega
  refine ⟨memRead_of_lt hlt s, s.setCell addr v, memWrite_of_lt hlt v s, by simp, fun a ha => ?_, rfl, rfl, rfl, rfl⟩
  have hne : a ≠ addr := by simpa using ha
  simp [hne]

/-- PUSH stores the register at the decremented SP and touches no other cell (R141). -/
theorem pushed_cell (s : State) (r : Fin 8) (addr : Nat) :
    (pushed s r).cell addr = if addr = s.spDecrement.sp.toNat then s.spDecrement.reg r else s.cell addr :=
  s.spDecrement.setCell_cell _ _ addr

/-- CALL stores the return address at the decremented SP and touches no other cell (R160). -/
theorem called_cell (s : State) (r : Fin 8) (addr : Nat) :
    (called s r).cell addr = if addr = s.spDecrement.sp.toNat then returnAddress s else s.cell addr :=
  s.spDecrement.setCell_cell _ _ addr

/-! ### Which steps write memory -/

/-- A completed instruction changes a cell only as PUSH or CALL, and only the cell at the decremented SP (R46, R49). -/
theorem Completes.cell_table {s t : State} {w : Window} (h : Completes s w t) {addr : Nat}
    (hne : t.cell addr ≠ s.cell addr) : addr = s.spDecrement.sp.toNat ∧ (w.op = 0x45#8 ∨ w.op = 0x50#8) := by
  cases h with
  | hlt | ldi | prn | mul | add | pop | ret => exact absurd rfl hne
  | @push r hop =>
    have haddr : addr = s.spDecrement.sp.toNat := by by_contra hn; exact hne ((pushed_cell s r addr).trans (if_neg hn))
    exact ⟨haddr, .inl hop⟩
  | @call r hop =>
    have haddr : addr = s.spDecrement.sp.toNat := by by_contra hn; exact hne ((called_cell s r addr).trans (if_neg hn))
    exact ⟨haddr, .inr hop⟩

/-- Settles O40: a fault writes no cell, and a completed instruction only those of `Completes.cell_table`. -/
theorem onlyPushAndCallWriteMemory : Obligations.OnlyPushAndCallWriteMemory := by
  intro s t addr hstep hne
  obtain ⟨-, ⟨e, rfl, -⟩ | ⟨w, hw, hc⟩⟩ := step_faults_or_completes hstep
  · exact absurd (State.enterFault_cell s e addr) hne
  · obtain ⟨haddr, hop⟩ := hc.cell_table hne
    exact ⟨haddr, w, hw, hop⟩

/-! ### Which steps leave memory -/

/-- With its window out of memory a Running Machine faults at address 256, for every `pc` a run can reach (R26, R81). -/
theorem step_of_top {s : State} (hrun : s.run = .running) (h : 254 ≤ s.pc.toNat) (h' : s.pc.toNat ≤ 256) :
    step s = .next (s.enterFault ⟨.memOutOfBounds, 256⟩) :=
  step_of_fetch_error hrun (by simp [fetchDecode, fetchWindow_of_top h h', bind, Except.bind])

/-- Fetch and decode raise MemOutOfBounds only for a window that does not fit in memory (R81, R181). -/
theorem fetchDecode_memOutOfBounds {s : State} {e : Raise} (h : fetchDecode s = .error e)
    (hkind : e.kind = .memOutOfBounds) : 254 ≤ s.pc.toNat := by
  rcases fetchDecode_cases s with ⟨w, i, -, -, hf⟩ | ⟨w, -, -, hf⟩ | ⟨addr, hpc, -, -, -⟩
  · simp [hf] at h
  · obtain rfl := Except.error.inj (hf.symm.trans h)
    simp at hkind
  · exact hpc

/-- A step that ends in MemOutOfBounds has its window out of memory: an instruction raises for its register operands only
(R184), and a completed one has not faulted. -/
theorem step_memOutOfBounds {s t : State} {info : Nat} {faultPc : Pc} (h : step s = .next t)
    (hfault : t.run = .faulted .memOutOfBounds info faultPc) : 254 ≤ s.pc.toNat := by
  obtain ⟨hrun, ⟨e, he, rfl⟩ | ⟨w, i, e, -, -, he, rfl⟩ | ⟨w, i, -, hd, hh⟩⟩ := step_cases h
  · exact fetchDecode_memOutOfBounds he (RunState.faulted.inj hfault).1
  · obtain ⟨b, -, -, rfl⟩ := handler_error he
    simp at hfault
  · rcases (completes_of_handler hd hh).run_eq_or_halted with hr | hr <;> simp [hr, hrun] at hfault

/-- Settles O24: only the fetch raises MemOutOfBounds, and a stack access has a byte for its address. -/
theorem onlyTheFetchCanLeaveMemory : Obligations.OnlyTheFetchCanLeaveMemory := by
  refine ⟨fun s hrun hpc => ⟨?_, fun htop => ?_⟩, fun s v => ?_⟩
  · rintro ⟨t, info, faultPc, hstep, hfault⟩
    exact step_memOutOfBounds hstep hfault
  · exact ⟨_, 256, s.pc, step_of_top hrun htop hpc, rfl⟩
  · exact ⟨memRead_byte s.sp s, _, memWrite_byte s.spDecrement.sp v s.spDecrement⟩

/-! ### A store into the instruction's own window -/

/-- A Running Machine whose window's instruction completes steps to what its handler leaves (R80, R83). -/
theorem step_of_handler_ok {s t : State} {w : Window} {i : Instr} (hrun : s.run = .running) (hw : s.WindowIs w)
    (hd : decode w = .instr i) (h : handler i s = .ok t) : step s = .next t := by
  rw [step_of_fetch_ok hrun (fetchDecode_of_windowIs hw hd), exec_eq_commit, h, commit_ok]

/-- A step whose window holds PUSH of a register completes it, with the operand as it was fetched (R55, R141). -/
theorem step_push {s : State} {a b : Byte} {r : Fin 8} (hrun : s.run = .running) (hw : s.WindowIs ⟨0x45#8, a, b⟩)
    (ha : Names a r) : step s = .next (pushed s r) :=
  step_of_handler_ok hrun hw (i := .push a) rfl (push_of_names ha s)

/-- A step whose window holds CALL of a register completes it, with the operand as it was fetched (R55, R160). -/
theorem step_call {s : State} {a b : Byte} {r : Fin 8} (hrun : s.run = .running) (hw : s.WindowIs ⟨0x50#8, a, b⟩)
    (ha : Names a r) : step s = .next (called s r) :=
  step_of_handler_ok hrun hw (i := .call a) rfl (call_of_names ha s)

/-- When one cell is stored in between, a fetch at the same `pc` sees the stored byte at the place of the window that the
cell is, and the bytes fetched before at the other two (R56, D17). -/
theorem State.WindowIs.after_store {s t : State} {w : Window} (hw : s.WindowIs w) {stored : Nat} {v : Byte}
    (hcell : ∀ addr, t.cell addr = if addr = stored then v else s.cell addr) :
    (stored = s.pc.toNat → (t.setPc s.pc).WindowIs ⟨v, w.a, w.b⟩) ∧
    (stored = s.pc.toNat + 1 → (t.setPc s.pc).WindowIs ⟨w.op, v, w.b⟩) ∧
    (stored = s.pc.toNat + 2 → (t.setPc s.pc).WindowIs ⟨w.op, w.a, v⟩) := by
  obtain ⟨hmem, hop, ha, hb⟩ := hw
  refine ⟨?_, ?_, ?_⟩
  · rintro rfl
    exact ⟨hmem, by simp [hcell], by simp [hcell, ha], by simp [hcell, hb]⟩
  · rintro rfl
    exact ⟨hmem, by simp [hcell, hop], by simp [hcell], by simp [hcell, hb]⟩
  · rintro rfl
    exact ⟨hmem, by simp [hcell, hop], by simp [hcell, ha], by simp [hcell]⟩

/-- Settles O44: the step is a completed PUSH, and its store is the one cell that differs when the window is fetched again. -/
theorem pushIntoItsOwnWindowIsSeenByTheNextFetchOnly : Obligations.PushIntoItsOwnWindowIsSeenByTheNextFetchOnly := by
  intro s a b r hrun hw ha
  have hinside := hw.inMemory
  refine ⟨pushed s r, step_push hrun hw ha, hrun, ?_, ?_, hw.after_store (pushed_cell s r)⟩
  · rw [pushed_cell, if_pos rfl]
  · exact s.advancePc_toNat 2 (by omega)

/-- Settles O52: the step is a completed CALL, and its store is the one cell that differs when the window is fetched again. -/
theorem callIntoItsOwnWindowIsSeenByTheNextFetchOnly : Obligations.CallIntoItsOwnWindowIsSeenByTheNextFetchOnly := by
  intro s a b r hrun hw ha
  refine ⟨called s r, step_call hrun hw ha, hrun, ?_, zextPc_toNat _, hw.after_store (called_cell s r)⟩
  rw [called_cell, if_pos rfl, returnAddress, narrow]

end Sys2Proof.Machine
end

section
/-! PROOFS. The decoder and the encoder: exact match, the illegal opcodes, and a loaded image read back (30_encoding.md). -/

namespace Sys2Proof

/-! ### Decode against encode -/

/-- The nine opcodes of the map (R64). -/
abbrev opcodeMap : List Byte := [0x01#8, 0x82#8, 0x47#8, 0xA2#8, 0xA0#8, 0x45#8, 0x46#8, 0x50#8, 0x11#8]

theorem Instr.opcode_mem_opcodeMap (i : Instr) : i.opcode ∈ opcodeMap := by
  cases i <;> simp [Instr.opcode]

/-- A window either begins with the encoding of the instruction it decodes to, or has an opcode outside the map (R64, R65). -/
theorem decode_instr_or_illegal (w : Window) :
    (∃ i, decode w = .instr i ∧ w.op = i.opcode ∧ encode i = [w.op, w.a, w.b].take i.length) ∨
    (decode w = .illegal w.op ∧ w.op ∉ opcodeMap) := by
  rcases decode_cases w with ⟨hop, hd⟩ | ⟨hop, hd⟩ | ⟨hop, hd⟩ | ⟨hop, hd⟩ | ⟨hop, hd⟩ | ⟨hop, hd⟩ | ⟨hop, hd⟩ |
    ⟨hop, hd⟩ | ⟨hop, hd⟩ | ⟨hop, hd⟩
  case inr.inr.inr.inr.inr.inr.inr.inr.inr => exact .inr ⟨hd, hop⟩
  all_goals exact .inl ⟨_, hd, hop, by rw [hop]; rfl⟩

/-- An encoding, whatever bytes follow it, decodes to its instruction (R61, R66). -/
theorem decode_ofBytes_encode_append (i : Instr) (rest : List Byte) :
    decode (Window.ofBytes (encode i ++ rest)) = .instr i := by
  cases i <;> rfl

/-- A window that decodes to an instruction begins with the instruction's encoding (R61, R65). -/
theorem encode_of_decode {w : Window} {i : Instr} (h : decode w = .instr i) :
    encode i = [w.op, w.a, w.b].take i.length := by
  rcases decode_instr_or_illegal w with ⟨j, hd, -, henc⟩ | ⟨hd, -⟩
  · obtain rfl := Decoded.instr.inj (hd.symm.trans h)
    exact henc
  · simp [hd] at h

/-- Settles O12: the round trip from either side. -/
theorem encodeAndDecodeAgree : Obligations.EncodeAndDecodeAgree :=
  ⟨decode_ofBytes_encode_append, fun _ _ => encode_of_decode⟩

/-- An opcode is illegal exactly when it is none of the nine (R64, R67). -/
theorem decode_eq_illegal_iff (w : Window) : decode w = .illegal w.op ↔ w.op ∉ opcodeMap := by
  rcases decode_instr_or_illegal w with ⟨i, hd, hop, -⟩ | ⟨hd, hop⟩
  · simp only [hd, hop, i.opcode_mem_opcodeMap, reduceCtorEq, not_true]
  · exact iff_of_true hd hop

/-- Settles O9: each of the nine opcodes by evaluation, the others by `decode_eq_illegal_iff`. -/
theorem dispatchDecodesExactlyTheNineOpcodes : Obligations.DispatchDecodesExactlyTheNineOpcodes := by
  refine ⟨fun a b => ?decodes, fun w => (decode_eq_illegal_iff w).mpr, fun a b => ?lengths, rfl, rfl⟩
  case decodes => exact ⟨rfl, rfl, rfl, rfl, rfl, rfl, rfl, rfl, rfl⟩
  case lengths => exact ⟨rfl, rfl, rfl, rfl, rfl, rfl, rfl, rfl, rfl⟩

/-! ### Sample words and the pattern of the opcode bits -/

/-- Settles O11: each word is unpacked and decoded by evaluation. -/
theorem sampleWordsDecodeToTheirInstructions : Obligations.SampleWordsDecodeToTheirInstructions := by
  refine ⟨?_, ?_, ?_, ?_, ?_, ?_, ?_, ?_, ?_, ?_, ?_⟩ <;> decide

/-- Opcode bits 7 and 6 count the operand bytes (R69). -/
theorem Instr.opcode_shift_six (i : Instr) : (i.opcode >>> 6).toNat = i.length - 1 := by
  cases i <;> simp [Instr.opcode, Instr.length, Instr.operandBytes]

/-- Opcode bit 5 marks the ALU instructions (R69). -/
theorem Instr.opcode_bit_five (i : Instr) : i.opcode.getLsbD 5 = true ↔ ∃ a b, i = .add a b ∨ i = .mul a b := by
  cases i <;> simp [Instr.opcode]

/-- Opcode bit 4 marks the instructions that set `pc` directly (R69). -/
theorem Instr.opcode_bit_four (i : Instr) : i.opcode.getLsbD 4 = true ↔ i = .ret ∨ ∃ a, i = .call a := by
  cases i <;> simp [Instr.opcode]

/-- Settles O13: the three bit fields over the nine opcodes, and 0xA1 is not one of them. -/
theorem opcodeBitsCountOperandsAndMarkClasses : Obligations.OpcodeBitsCountOperandsAndMarkClasses :=
  ⟨fun i => ⟨i.opcode_shift_six, i.opcode_bit_five, i.opcode_bit_four⟩,
    fun a b => (decode_eq_illegal_iff ⟨0xA1#8, a, b⟩).mpr (by simp)⟩

/-! ### The illegal opcodes -/

/-- The opcodes outside the map are those of the rule's ranges (R67). -/
theorem not_mem_opcodeMap_iff (op : Byte) : op ∉ opcodeMap ↔
    (op.toNat = 0x00 ∨ (0x02 ≤ op.toNat ∧ op.toNat ≤ 0x10) ∨ (0x12 ≤ op.toNat ∧ op.toNat ≤ 0x44) ∨
      (0x48 ≤ op.toNat ∧ op.toNat ≤ 0x4F) ∨ (0x51 ≤ op.toNat ∧ op.toNat ≤ 0x81) ∨
      (0x83 ≤ op.toNat ∧ op.toNat ≤ 0x9F) ∨ op.toNat = 0xA1 ∨ 0xA3 ≤ op.toNat) := by
  simp only [List.mem_cons, List.not_mem_nil, or_false, ← BitVec.toNat_inj, BitVec.toNat_ofNat]
  omega

/-- The map's nine opcodes are distinct, so 247 of the 256 bytes are outside it (R67). -/
theorem count_not_mem_opcodeMap :
    ((List.range 256).filter (fun n => decide (BitVec.ofNat 8 n ∉ opcodeMap))).length = 247 := by
  have hinside : ((List.range 256).filter (fun n => decide (BitVec.ofNat 8 n ∈ opcodeMap))).Perm
      (opcodeMap.map BitVec.toNat) := by
    rw [List.perm_ext_iff_of_nodup (List.nodup_range.filter _) (by decide)]
    intro n
    simp [← BitVec.toNat_inj]
    omega
  have hsplit := List.length_eq_length_filter_add (l := List.range 256) (fun n => decide (BitVec.ofNat 8 n ∈ opcodeMap))
  simp only [hinside.length_eq, List.length_range, List.length_map, List.length_cons, List.length_nil,
    ← decide_not] at hsplit
  omega

end Sys2Proof

namespace Sys2Proof.Machine

/-- Fetch and decode raise for an illegal opcode of a window in memory, with the opcode as info (R67, R182). -/
theorem fetchDecode_of_illegal {s : State} {w : Window} (hw : s.WindowIs w) (hd : decode w = .illegal w.op) :
    fetchDecode s = .error ⟨.illegalInstruction, w.op.toNat⟩ := by
  simp [fetchDecode, fetchWindow_of_windowIs hw, decodeOrRaise, hd, bind, Except.bind]

/-- A Running Machine whose window holds an illegal opcode faults with that opcode and changes nothing else (R67, R83). -/
theorem step_of_illegal {s : State} {w : Window} (hrun : s.run = .running) (hw : s.WindowIs w)
    (hd : decode w = .illegal w.op) : TakesFault s (step s) .illegalInstruction w.op.toNat := by
  rw [step_of_fetch_error hrun (fetchDecode_of_illegal hw hd)]
  exact takesFault_enterFault s _

/-- Settles O10: the list by `not_mem_opcodeMap_iff`, its count, and the step that meets such an opcode. -/
theorem illegalOpcodesAreThe247OfTheList : Obligations.IllegalOpcodesAreThe247OfTheList := by
  refine ⟨fun w => (decode_eq_illegal_iff w).trans (not_mem_opcodeMap_iff w.op), ?_,
    fun s w => step_of_illegal, State.constructed_cell Config.spInit, fun s hrun hpc hop => ?_⟩
  · simpa only [decode_eq_illegal_iff ⟨_, _, _⟩] using count_not_mem_opcodeMap
  · have hw : s.WindowIs ⟨0x00#8, (windowAt s).a, (windowAt s).b⟩ := ⟨hpc, hop, rfl, rfl⟩
    exact step_of_illegal hrun hw rfl

/-! ### A loaded image -/

/-- `run` writes no cell (R195). -/
@[simp] theorem hostRun_cell (s : State) (addr : Nat) : (hostRun s).cell addr = s.cell addr := by
  unfold hostRun
  split <;> rfl

/-- A booted Machine holds its program from address 0 up, and 0 above it (R34, R196, R213). -/
theorem boot_cell {bytes : List Byte} (h : bytes.length ≤ 256) (s : State) (addr : Nat) :
    (boot bytes s).cell addr = bytes.getD addr 0#8 := by
  obtain ⟨hcell, -⟩ := loadFrom_spec bytes Config.loadBase State.reset (by simpa [Config.loadBase] using h)
  have hload : (boot bytes s).cell addr = (loadFrom Config.loadBase bytes State.reset).cell addr := hostRun_cell _ addr
  rw [hload, hcell]
  by_cases haddr : addr < bytes.length
  · simp [Config.loadBase, haddr]
  · simp [Config.loadBase, haddr, State.reset]

/-- With `pc` at an address of a booted program, the window is the program's bytes from there (R60, R211). -/
theorem boot_windowIs {bytes : List Byte} (h : bytes.length ≤ 256) (s : State) {addr : Nat} (haddr : addr + 2 ≤ 255) :
    ((boot bytes s).setPc (BitVec.ofNat 9 addr)).WindowIs (Window.ofBytes (bytes.drop addr)) := by
  have hpc : (BitVec.ofNat 9 addr).toNat = addr := by simp; omega
  have hcell := boot_cell h s
  constructor <;> simp [hpc, hcell, haddr, Window.ofBytes, Config.memReset]

/-- From the address where its bytes begin, an image holds an instruction's encoding and what follows it (R70). -/
theorem encodeProgram_drop (before after : List Instr) (i : Instr) :
    (encodeProgram (before ++ i :: after)).drop (encodeProgram before).length = encode i ++ encodeProgram after := by
  simp [encodeProgram]

/-- Settles O14: the window at an instruction's address holds its encoding, which decodes whatever follows it. -/
theorem loadedImageDecodesToItsInstructions : Obligations.LoadedImageDecodesToItsInstructions := by
  intro s before after i hfits haddr
  refine fetchDecode_of_windowIs (boot_windowIs hfits s haddr) ?_
  rw [encodeProgram_drop]
  exact decode_ofBytes_encode_append i (encodeProgram after)

end Sys2Proof.Machine
end

section
/-! PROOFS. The assembler reads back what it writes: numbers, operands, lines of text (30_encoding.md R71). -/

namespace Sys2Proof.Machine

/-! ### Numbers and the two kinds of operand -/

/-- The character of a decimal digit, as `decimal` writes it. -/
def digitChar (d : Nat) : Char := Char.ofNat (48 + d % 10)

theorem decimal_eq (n : Nat) : decimal n =
    if n < 10 then [digitChar n]
    else if n < 100 then [digitChar (n / 10), digitChar n]
    else [digitChar (n / 100), digitChar (n / 10), digitChar n] := rfl

theorem digitValue_digitChar (d : Nat) : digitValue 10 (digitChar d) = some (d % 10) :=
  (by decide : ∀ k < 10, digitValue 10 (Char.ofNat (48 + k)) = some k) _ (Nat.mod_lt d (by decide))

theorem isDigit_digitChar (d : Nat) : (digitChar d).isDigit = true :=
  (by decide : ∀ k < 10, (Char.ofNat (48 + k)).isDigit = true) _ (Nat.mod_lt d (by decide))

theorem isDigit_of_mem_decimal {n : Nat} : ∀ c ∈ decimal n, c.isDigit = true := by
  rw [decimal_eq]
  split_ifs <;> simp [isDigit_digitChar]

/-- A decimal text holds digits only: no blank, no comma, no base letter. -/
theorem not_mem_decimal {c : Char} (h : c.isDigit = false) (n : Nat) : c ∉ decimal n := fun hc => by
  simp [isDigit_of_mem_decimal c hc] at h

theorem decimal_ne_nil (n : Nat) : decimal n ≠ [] := by
  rw [decimal_eq]
  split_ifs <;> simp

/-- A number below 1000 is read back from its decimal digits. -/
theorem parseNumber_decimal {n : Nat} (h : n < 1000) : parseNumber 10 (decimal n) = some n := by
  rw [decimal_eq]
  split_ifs <;> simp [parseNumber, digitsValue, digitValue_digitChar] <;> omega

/-- A register operand is read back from its text (R71). -/
theorem parseRegister_showRegister {b : Byte} (h : isRegister b = true) : parseRegister (showRegister b) = some b := by
  have hlt : b.toNat < 8 := by simpa [isRegister] using h
  simp [parseRegister, showRegister, parseNumber_decimal (show b.toNat < 1000 by omega), hlt]

/-- Without an `x` or a `b` in it, an immediate is a decimal number (R71). -/
theorem parseImmediate_of_parseNumber {cs : List Char} {n : Nat} (hx : 'x' ∉ cs) (hb : 'b' ∉ cs)
    (hn : parseNumber 10 cs = some n) (hlt : n < 256) : parseImmediate cs = some (BitVec.ofNat 8 n) := by
  unfold parseImmediate
  split
  · simp at hx
  · simp at hb
  · simp [hn, hlt]

/-- An immediate is read back from its decimal text (R71). -/
theorem parseImmediate_decimal (b : Byte) : parseImmediate (decimal b.toNat) = some b := by
  have hlt : b.toNat < 256 := b.isLt
  rw [parseImmediate_of_parseNumber (not_mem_decimal rfl _) (not_mem_decimal rfl _)
    (parseNumber_decimal (by omega)) hlt, BitVec.ofNat_toNat, BitVec.setWidth_eq]

/-! ### Tokens and lines -/

/-- A text that blanks and commas separate from others: not empty, and with neither in it. -/
structure IsToken (cs : List Char) : Prop where
  ne_nil : cs ≠ []
  no_space : ' ' ∉ cs
  no_comma : ',' ∉ cs

theorem isToken_decimal (n : Nat) : IsToken (decimal n) where
  ne_nil := decimal_ne_nil n
  no_space := not_mem_decimal rfl n
  no_comma := not_mem_decimal rfl n

theorem isToken_showRegister (b : Byte) : IsToken (showRegister b) where
  ne_nil := by simp [showRegister]
  no_space := by simpa [showRegister] using (isToken_decimal b.toNat).no_space
  no_comma := by simpa [showRegister] using (isToken_decimal b.toNat).no_comma

/-- Trimming leaves a text alone that has no blank at either end. -/
theorem trimSpaces_eq_self {cs : List Char} (hhead : cs.head? ≠ some ' ') (hlast : cs.getLast? ≠ some ' ') :
    trimSpaces cs = cs := by
  have hfront : cs.dropWhile (· == ' ') = cs := by
    cases cs with
    | nil => rfl
    | cons c cs => simp [show c ≠ ' ' by simpa using hhead]
  have hback : cs.rdropWhile (· == ' ') = cs := by
    rw [List.rdropWhile_eq_self_iff]
    intro hne
    simpa [List.getLast?_eq_some_getLast hne] using hlast
  rw [trimSpaces, hfront]
  exact hback

theorem trimSpaces_of_no_space {cs : List Char} (h : ' ' ∉ cs) : trimSpaces cs = cs :=
  trimSpaces_eq_self (fun hc => h (List.mem_of_head? hc)) (fun hc => h (List.mem_of_getLast? hc))

/-- The operands of a line, with a comma between each two. -/
def joinOperands (ops : List (List Char)) : List Char := [','].intercalate ops

/-- Operands that are tokens have no blank between them when joined. -/
theorem joinOperands_no_space {ops : List (List Char)} (h : ∀ t ∈ ops, IsToken t) : ' ' ∉ joinOperands ops := by
  induction ops with
  | nil => simp [joinOperands]
  | cons t ops ih =>
    have ht := (h t (by simp)).no_space
    have ih := ih fun u hu => h u (by simp [hu])
    cases ops with
    | nil => simpa [joinOperands] using ht
    | cons u ops => simpa [joinOperands, List.intercalate_cons_cons, ht] using ih

theorem joinOperands_ne_nil {ops : List (List Char)} (h : ∀ t ∈ ops, IsToken t) (hne : ops ≠ []) :
    joinOperands ops ≠ [] := by
  cases ops with
  | nil => exact absurd rfl hne
  | cons t ops =>
    have ht := (h t (by simp)).ne_nil
    cases ops with
    | nil => simpa [joinOperands] using ht
    | cons u ops => simp [joinOperands, List.intercalate_cons_cons]

theorem splitOperands_nil : splitOperands [] = [] := rfl

/-- Operands that are tokens are read back from what follows the mnemonic (R71). -/
theorem splitOperands_joinOperands {ops : List (List Char)} (h : ∀ t ∈ ops, IsToken t) (hne : ops ≠ []) :
    splitOperands (' ' :: joinOperands ops) = ops := by
  have htrim : trimSpaces (' ' :: joinOperands ops) = joinOperands ops :=
    trimSpaces_of_no_space (joinOperands_no_space h)
  have hsplit : (joinOperands ops).splitOn ',' = ops := List.splitOn_intercalate ',' (fun t ht => (h t ht).no_comma) hne
  have hmap : ops.map trimSpaces = ops :=
    (List.map_congr_left fun t ht => trimSpaces_of_no_space (h t ht).no_space).trans (List.map_id ops)
  simp [splitOperands, htrim, joinOperands_ne_nil h hne, hsplit, hmap]

/-- A line of text: the mnemonic, and after a blank the operands, if there are any. -/
def line (mnemonic : List Char) (ops : List (List Char)) : List Char :=
  if ops = [] then mnemonic else mnemonic ++ ' ' :: joinOperands ops

/-- A line of tokens is read as its mnemonic's form with its operands (R71). -/
theorem parseInstr_line {mnemonic : List Char} {ops : List (List Char)} (hm : IsToken mnemonic)
    (hops : ∀ t ∈ ops, IsToken t) : parseInstr (line mnemonic ops) = parseForm mnemonic ops := by
  have hword : ∀ c ∈ mnemonic, (c != ' ') = true := fun c hc => by
    simpa using fun h : c = ' ' => hm.no_space (h ▸ hc)
  by_cases hne : ops = []
  · subst hne
    simp [parseInstr, line, trimSpaces_of_no_space hm.no_space, List.takeWhile_eq_self_iff.mpr hword,
      List.dropWhile_eq_nil_iff.mpr hword, splitOperands_nil]
  · have htrim : trimSpaces (mnemonic ++ ' ' :: joinOperands ops) = mnemonic ++ ' ' :: joinOperands ops := by
      apply trimSpaces_eq_self
      · rw [List.head?_append_of_ne_nil _ hm.ne_nil]
        exact fun hc => hm.no_space (List.mem_of_head? hc)
      · rw [List.append_cons, List.getLast?_append_of_ne_nil _ (joinOperands_ne_nil hops hne)]
        exact fun hc => joinOperands_no_space hops (List.mem_of_getLast? hc)
    simp [parseInstr, line, hne, htrim, List.takeWhile_append_of_pos hword, List.dropWhile_append_of_pos hword,
      splitOperands_joinOperands hops hne]

/-! ### The text of an instruction -/

/-- The mnemonic of an instruction (R71). -/
def mnemonicText : Instr → List Char
  | .hlt => ['H', 'L', 'T']
  | .ret => ['R', 'E', 'T']
  | .prn _ => ['P', 'R', 'N']
  | .push _ => ['P', 'U', 'S', 'H']
  | .pop _ => ['P', 'O', 'P']
  | .call _ => ['C', 'A', 'L', 'L']
  | .ldi _ _ => ['L', 'D', 'I']
  | .add _ _ => ['A', 'D', 'D']
  | .mul _ _ => ['M', 'U', 'L']

/-- The operands of an instruction as text: registers, and a decimal immediate for LDI (R71). -/
def operandTexts : Instr → List (List Char)
  | .hlt => []
  | .ret => []
  | .prn a => [showRegister a]
  | .push a => [showRegister a]
  | .pop a => [showRegister a]
  | .call a => [showRegister a]
  | .ldi a b => [showRegister a, decimal b.toNat]
  | .add a b => [showRegister a, showRegister b]
  | .mul a b => [showRegister a, showRegister b]

/-- The written text is the line of the mnemonic and the operands. -/
theorem showInstr_eq_line (i : Instr) : showInstr i = line (mnemonicText i) (operandTexts i) := by
  cases i <;> simp [showInstr, line, mnemonicText, operandTexts, joinOperands, List.intercalate_cons_cons]

theorem isToken_mnemonicText (i : Instr) : IsToken (mnemonicText i) := by
  cases i <;> exact ⟨by simp [mnemonicText], by simp [mnemonicText], by simp [mnemonicText]⟩

theorem isToken_of_mem_operandTexts {i : Instr} : ∀ t ∈ operandTexts i, IsToken t := by
  cases i <;> simp [operandTexts, isToken_showRegister, isToken_decimal]

/-- The form of each mnemonic reads its operands back, if its registers are `R0` to `R7` (R71). -/
theorem parseForm_texts {i : Instr} (h : i.wellFormed = true) :
    parseForm (mnemonicText i) (operandTexts i) = some i := by
  have hreg : ∀ b ∈ i.registerOperands, parseRegister (showRegister b) = some b := fun b hb =>
    parseRegister_showRegister (List.all_eq_true.mp h b hb)
  cases i with
  | hlt | ret => rfl
  | prn a | push a | pop a | call a =>
    simpa [mnemonicText, operandTexts, parseForm, oneRegister, Instr.registerOperands] using hreg
  | ldi a b =>
    have ha : parseRegister (showRegister a) = some a := by simpa [Instr.registerOperands] using hreg
    simp [mnemonicText, operandTexts, parseForm, registerImmediate, ha, parseImmediate_decimal]
  | add a b | mul a b =>
    obtain ⟨ha, hb⟩ : parseRegister (showRegister a) = some a ∧ parseRegister (showRegister b) = some b := by
      simpa [Instr.registerOperands] using hreg
    simp [mnemonicText, operandTexts, parseForm, twoRegisters, ha, hb]

/-- A well-formed instruction is read back from its text (R71). -/
theorem parseInstr_showInstr {i : Instr} (h : i.wellFormed = true) : parseInstr (showInstr i) = some i := by
  rw [showInstr_eq_line, parseInstr_line (isToken_mnemonicText i) isToken_of_mem_operandTexts, parseForm_texts h]

/-- Settles O15: the text is read back, and the assembler encodes what it reads. -/
theorem assemblerReadsBackWrittenInstructions : Obligations.AssemblerReadsBackWrittenInstructions :=
  fun i h => ⟨parseInstr_showInstr h, by rw [assemble, parseInstr_showInstr h, Option.map_some]⟩

end Sys2Proof.Machine
end

section
/-! PROOFS. The execution loop: one step of it, the run states that end it, and what a whole run yields
(40_execution_loop.md). -/

namespace Sys2Proof.Machine

/-! ### One step: fetch, halt, dispatch -/

/-- Every instruction has a next state: its handler's result, or Faulted (R10, R186). -/
theorem exec_next (i : Instr) (s : State) : ∃ t, exec i s = .next t := by
  rw [exec_eq_commit]
  cases handler i s with
  | ok t => exact ⟨t, commit_ok s t⟩
  | error e => exact ⟨s.enterFault e, commit_error s e⟩

/-- A Running Machine always has a next state (R85, R86). -/
theorem step_of_running {s : State} (hrun : s.run = .running) : ∃ t, step s = .next t := by
  cases hf : fetchDecode s with
  | error e => exact ⟨s.enterFault e, step_of_fetch_error hrun hf⟩
  | ok i =>
    rw [step_of_fetch_ok hrun hf]
    exact exec_next i s

/-- A Running Machine whose window lies in memory and begins with HLT halts (R82, R100). -/
theorem step_hlt {s : State} (hrun : s.run = .running) (hmem : s.pc.toNat + 2 ≤ 255)
    (hop : s.cell s.pc.toNat = 0x01#8) : step s = .next s.halt :=
  step_of_handler_ok hrun (windowIs_windowAt hmem) (i := .hlt) (if_pos hop) rfl

/-- With its window out of memory a Running Machine takes the fault of address 256 (R26, R81). -/
theorem takesFault_of_top {s : State} (hrun : s.run = .running) (h : 254 ≤ s.pc.toNat) (h' : s.pc.toNat ≤ 256) :
    TakesFault s (step s) .memOutOfBounds 256 := by
  rw [step_of_top hrun h h']
  exact takesFault_enterFault s ⟨.memOutOfBounds, 256⟩

/-- From Running, the one instruction that completes in Halted is HLT (R86, R100). -/
theorem Completes.halted_iff {s t : State} {w : Window} (h : Completes s w t) (hrun : s.run = .running) :
    t.run = .halted ↔ w.op = 0x01#8 := by
  cases h with
  | hlt hop => simp [hop]
  | ldi hop | prn hop | mul hop | add hop | push hop | pop hop | call hop | ret hop => simp [hop, hrun]

/-- Settles O22: HLT in memory halts by `step_hlt`, and a step that halts has completed an instruction, which is HLT. -/
theorem runningStepsHaltExactlyOnHlt : Obligations.RunningStepsHaltExactlyOnHlt := by
  refine ⟨fun s hrun => ?_, fun s t hstep => (step_cases hstep).1⟩
  obtain ⟨t, hstep⟩ := step_of_running hrun
  have hhalts : s.pc.toNat + 2 ≤ 255 ∧ s.cell s.pc.toNat = 0x01#8 → t.run = .halted := by
    rintro ⟨hmem, hop⟩
    obtain rfl : s.halt = t := by simpa [step_hlt hrun hmem hop] using hstep
    exact s.halt_run
  obtain ⟨-, ⟨e, rfl, -⟩ | ⟨w, hw, hc⟩⟩ := step_faults_or_completes hstep
  · refine ⟨s.enterFault e, hstep, .inr (.inr ⟨e.kind, e.info, rfl⟩), fun hhalted => ?_, hhalts⟩
    simp at hhalted
  · refine ⟨t, hstep, ?_, fun hhalted => ⟨hw.inMemory, hw.op.trans ((hc.halted_iff hrun).mp hhalted)⟩, hhalts⟩
    rcases hc.run_eq_or_halted with hr | hr
    · exact .inl (hr.trans hrun)
    · exact .inr (.inl hr)

/-- Settles O16: dispatch of a decoded window, and the fault of an illegal one. -/
theorem stepRunsTheDecodedInstruction : Obligations.StepRunsTheDecodedInstruction :=
  fun _ _ hrun hw => ⟨fun _ hd => step_of_fetch_ok hrun (fetchDecode_of_windowIs hw hd), step_of_illegal hrun hw⟩

/-- Settles O17: above 253 the window is out of memory, and at 253 or below it is the one at `pc`. -/
theorem fetchFaultsExactlyAboveAddress253 : Obligations.FetchFaultsExactlyAboveAddress253 :=
  fun _ hrun hpc => ⟨fun htop => takesFault_of_top hrun htop hpc,
    fun hle => fetchWindow_of_windowIs (windowIs_windowAt (by omega))⟩

/-- Settles O18: HLT with its whole window in memory halts, and without it the fetch faults first. -/
theorem haltNeedsItsWholeWindowInMemory : Obligations.HaltNeedsItsWholeWindowInMemory :=
  fun s hrun hop => ⟨fun hle => ⟨s.halt, step_hlt hrun (by omega) hop, s.halt_run, s.halt_pc⟩,
    fun htop => takesFault_of_top hrun (by omega) (by omega)⟩

/-! ### The run states that end a run -/

theorem State.isFaulted_iff {s : State} :
    s.isFaulted = true ↔ ∃ kind info faultPc, s.run = .faulted kind info faultPc := by
  unfold State.isFaulted
  cases s.run <;> simp

/-- A run ends in Halted and in Faulted (R88). -/
theorem State.ended_iff {s : State} : s.ended = true ↔ s.run = .halted ∨ s.isFaulted = true := by
  unfold State.ended State.isFaulted
  cases s.run <;> simp

theorem State.run_ne_running_of_ended {s : State} (h : s.ended = true) : s.run ≠ .running := by
  intro hrun
  simp [State.ended, hrun] at h

theorem State.run_ne_idle_of_ended {s : State} (h : s.ended = true) : s.run ≠ .idle := by
  intro hidle
  simp [State.ended, hidle] at h

/-- Outside Running the step answers the named stop of the run state (R80, R86, log 2). -/
theorem step_of_stopReason {s : State} {reason : Fault} (h : stopReason s.run = some reason) : step s = .fault reason := by
  simp [step, h]

/-- Outside Idle no transaction but `reset` has an effect (R193, R195, D10). -/
theorem transact_of_not_idle {s : State} {tr : Transaction} (hs : s.run ≠ .idle) (htr : tr ≠ .reset) :
    transact tr s = s := by
  cases tr with
  | reset => exact absurd rfl htr
  | load bytes => exact if_neg hs
  | run => exact if_neg hs

/-- Settles O6: both run states have a stop reason, neither is Idle, and reset is the constructed Machine. -/
theorem haltedAndFaultedAreFinalUntilReset : Obligations.HaltedAndFaultedAreFinalUntilReset := by
  intro s hs
  refine ⟨fun hhalted => ?_, fun hne => ?_, fun tr => transact_of_not_idle (State.run_ne_idle_of_ended hs), rfl⟩
  · exact step_of_stopReason (by rw [hhalted, stopReason])
  · obtain ⟨kind, info, faultPc, hfault⟩ := State.isFaulted_iff.mp ((State.ended_iff.mp hs).resolve_left hne)
    exact step_of_stopReason (by rw [hfault, stopReason])

/-! ### A run and its events -/

theorem runFor_succ_of_step {s t : State} (h : step s = .next t) (n : Nat) : runFor (n + 1) s = runFor n t := by
  simp [runFor, h]

theorem runEvents_succ_of_step {s t : State} (h : step s = .next t) (n : Nat) :
    runEvents (n + 1) s = stepEvents s ++ runEvents n t := by
  simp [runEvents, h]

/-- Outside Running, fuel changes nothing (R80, R86). -/
theorem runFor_of_not_running {s : State} (h : s.run ≠ .running) (n : Nat) : runFor n s = s := by
  obtain ⟨r, hs⟩ := step_of_not_running h
  cases n with
  | zero => rfl
  | succ n => simp [runFor, hs]

/-- Outside Running there are no events (R80, R191). -/
theorem runEvents_of_not_running {s : State} (h : s.run ≠ .running) (n : Nat) : runEvents n s = [] := by
  obtain ⟨r, hs⟩ := step_of_not_running h
  cases n with
  | zero => rfl
  | succ n => simp [runEvents, hs]

/-- A run of `n + m` steps is one of `m` steps from where `n` steps end. -/
theorem runFor_add (n m : Nat) (s : State) : runFor (n + m) s = runFor m (runFor n s) := by
  induction n generalizing s with
  | zero => rw [Nat.zero_add, runFor]
  | succ n ih =>
    by_cases hrun : s.run = .running
    · obtain ⟨t, hstep⟩ := step_of_running hrun
      rw [Nat.succ_add, runFor_succ_of_step hstep, runFor_succ_of_step hstep, ih]
    · simp only [runFor_of_not_running hrun]

/-- A run appends to the record the events of its steps, in program order, and nothing else (R88, R191). -/
theorem runFor_out (n : Nat) (s : State) : (runFor n s).out = s.out ++ runEvents n s := by
  induction n generalizing s with
  | zero => simp [runFor, runEvents]
  | succ n ih =>
    by_cases hrun : s.run = .running
    · obtain ⟨t, hstep⟩ := step_of_running hrun
      rw [runFor_succ_of_step hstep, runEvents_succ_of_step hstep, ih, step_out hstep, List.append_assoc]
    · rw [runFor_of_not_running hrun, runEvents_of_not_running hrun, List.append_nil]

/-! ### The yield of a run -/

/-- There is a yield exactly at the end of a run (R88). -/
theorem State.yield_isSome (s : State) : s.yield.isSome = s.ended := by
  unfold State.yield State.ended
  cases s.run <;> rfl

theorem State.yield_of_halted {s : State} (h : s.run = .halted) :
    s.yield = some ⟨s.out, .halted, some (s.x, s.pc, s.mem)⟩ := by
  simp [State.yield, h]

theorem State.yield_of_isFaulted {s : State} (h : s.isFaulted = true) : s.yield = some ⟨s.out, s.run, none⟩ := by
  obtain ⟨kind, info, faultPc, hfault⟩ := State.isFaulted_iff.mp h
  simp [State.yield, hfault]

/-- The events of a yield are the record at the end of the run (R88, log 4). -/
theorem State.events_of_yield {s : State} {y : Yield} (h : s.yield = some y) : y.events = s.out := by
  have hended : s.ended = true := by rw [← s.yield_isSome, h, Option.isSome_some]
  rcases State.ended_iff.mp hended with hhalted | hfaulted
  · rw [State.yield_of_halted hhalted] at h
    rw [← Option.some.inj h]
  · rw [State.yield_of_isFaulted hfaulted] at h
    rw [← Option.some.inj h]

/-- Settles O47: an ended state is not Running, so further fuel leaves it; the yield is read off its run state. -/
theorem endedRunStaysAtItsYield : Obligations.EndedRunStaysAtItsYield := by
  refine ⟨fun n m s hended => ?_, fun s => ⟨?_, State.yield_of_halted, State.yield_of_isFaulted⟩⟩
  · rw [runFor_add, runFor_of_not_running (State.run_ne_running_of_ended hended)]
  · rw [s.yield_isSome]

/-- A load adds nothing to the record, whether it fits in memory or faults (R196). -/
theorem hostLoad_out (bytes : List Byte) (s : State) : (hostLoad bytes s).out = s.out := by
  unfold hostLoad
  split
  · by_cases hfits : Config.loadBase + bytes.length ≤ 256
    · obtain ⟨-, -, -, -, hout⟩ := loadFrom_spec bytes Config.loadBase s hfits
      exact hout
    · obtain ⟨-, -, -, hout⟩ := loadFrom_long bytes Config.loadBase s (Nat.zero_le 256) (Nat.lt_of_not_le hfits)
      exact hout
  · rfl

/-- `run` adds nothing to the record (R195). -/
theorem hostRun_out (s : State) : (hostRun s).out = s.out := by
  unfold hostRun
  split <;> rfl

/-- A booted Machine's record is empty, whatever it held before (R213, log 4). -/
theorem boot_out (bytes : List Byte) (s : State) : (boot bytes s).out = [] :=
  (hostRun_out _).trans (hostLoad_out bytes _)

/-- A run that starts with an empty record yields exactly its own events (R88, R191). -/
theorem events_of_yield_runFor {n : Nat} {s : State} {y : Yield} (hout : s.out = [])
    (hy : (runFor n s).yield = some y) : y.events = runEvents n s := by
  rw [State.events_of_yield hy, runFor_out, hout, List.nil_append]

/-- Settles O53: a run starts with an empty record, after a boot and from every Idle state of the invariant. -/
theorem yieldedEventsAreTheRunsOwn : Obligations.YieldedEventsAreTheRunsOwn := by
  refine ⟨runFor_out, fun n s bytes y hy => ?_, fun n s y hs hidle hy => ?_⟩
  · exact events_of_yield_runFor (boot_out bytes s) hy
  · exact events_of_yield_runFor ((hostRun_out s).trans (hs.idleSilent hidle)) hy

end Sys2Proof.Machine
end

section
/-! PROOFS. HLT, LDI and PRN: what each leaves, and that it changes nothing else (41_control_and_data.md). -/

namespace Sys2Proof.Machine

/-! ### A completed instruction's next state -/

/-- An instruction that its handler completes has the handler's result for its next state (R10, R83). -/
theorem exec_of_handler_ok {i : Instr} {s t : State} (h : handler i s = .ok t) : exec i s = .next t := by
  rw [exec_eq_commit, h, commit_ok]

/-- HLT halts, in every state (R100). -/
theorem exec_hlt (s : State) : exec .hlt s = .next s.halt :=
  exec_of_handler_ok rfl

/-- LDI of a register of the file is one register write and an advance by 3 (R101). -/
theorem exec_ldi_of_names {a : Byte} {r : Fin 8} (h : Names a r) (b : Byte) (s : State) :
    exec (.ldi a b) s = .next ((s.setReg r b).advancePc 3) :=
  exec_of_handler_ok (ldi_of_names h b s)

/-- PRN of a register of the file is one output event and an advance by 2 (R102). -/
theorem exec_prn_of_names {a : Byte} {r : Fin 8} (h : Names a r) (s : State) :
    exec (.prn a) s = .next ((s.emit (s.reg r)).advancePc 2) :=
  exec_of_handler_ok (prn_of_names h s)

/-! ### What does not change -/

/-- One register write followed by an advance of `pc` keeps every other register (R20). -/
theorem sameRegsExcept_setReg_advancePc (s : State) (d : Fin 8) (v : Byte) (n : Nat) :
    SameRegsExcept s ((s.setReg d v).advancePc n) [d] := by
  intro r hr
  have hne : r ≠ d := by simpa using hr
  simp [hne]

/-- A halted Machine takes no step: the engine steps in Running only (R80, R86, R100). -/
theorem step_halt_ne_next (s u : State) : step s.halt ≠ .next u := by
  intro hstep
  have hrun : s.halt.run = .running := (step_cases hstep).1
  simp at hrun

/-! ### The three instructions -/

/-- Settles O26: HLT decodes and encodes by its opcode alone and leaves `s.halt`; at 254 and 255 its window is out of memory. -/
theorem hltHaltsAndChangesNothingElse : Obligations.HltHaltsAndChangesNothingElse := by
  refine ⟨fun a b => rfl, rfl, rfl, fun s => ?halts, fun s hrun hpc _ => ?faults⟩
  case halts =>
    exact ⟨s.halt, exec_hlt s, s.halt_run, s.halt_pc, fun r _ => s.halt_reg r, fun addr _ => s.halt_cell addr,
      s.halt_out, step_halt_ne_next s⟩
  case faults => exact takesFault_of_top hrun (by omega) (by omega)

/-- Settles O27: the next state is one register write and an advance, exact because the window lies in memory. -/
theorem ldiWritesImmediateToRegister : Obligations.LdiWritesImmediateToRegister := by
  intro s a b d ha hmem
  refine ⟨(s.setReg d b).advancePc 3, exec_ldi_of_names ha b s, by simp, ?_,
    sameRegsExcept_setReg_advancePc s d b 3, fun _ _ => rfl, rfl, rfl⟩
  exact (s.setReg d b).advancePc_toNat 3 (by rw [s.setReg_pc]; omega)

/-- Settles O28: the next state is one output event and an advance, exact because the window lies in memory. -/
theorem prnDeliversOneEvent : Obligations.PrnDeliversOneEvent := by
  intro s a r ha hmem
  refine ⟨(s.emit (s.reg r)).advancePc 2, exec_prn_of_names ha s, rfl, ?_, fun _ _ => rfl, fun _ _ => rfl, rfl⟩
  exact (s.emit (s.reg r)).advancePc_toNat 2 (by rw [s.emit_pc]; omega)

end Sys2Proof.Machine
end

section
/-! PROOFS. The ALU and the two instructions that drive it: the value, the one register written, and the select that nothing
drives (42_alu.md). -/

namespace Sys2Proof.Machine

/-! ### The result of an operation -/

/-- The sum cut to 8 bits is the sum of the two bit patterns (R125). -/
theorem add_result (u v : Byte) : AluSelect.add.result u v = .ok (u + v) := by
  simp [AluSelect.result, narrow, BitVec.ofNat_add]

/-- The product cut to 8 bits is the product of the two bit patterns (R125). -/
theorem mul_result (u v : Byte) : AluSelect.mul.result u v = .ok (u * v) := by
  simp [AluSelect.result, narrow, BitVec.ofNat_mul]

/-- Settles O36: the bit patterns' own sum and product, which reading them as two's-complement integers does not change. -/
theorem arithmeticIgnoresSign : Obligations.ArithmeticIgnoresSign := by
  intro u v
  constructor
  · rw [add_result, BitVec.ofInt_add, BitVec.ofInt_toInt, BitVec.ofInt_toInt]
  · rw [mul_result, BitVec.ofInt_mul, BitVec.ofInt_toInt, BitVec.ofInt_toInt]

/-! ### The one register written -/

/-- An operation that has a result is one register write, of the destination (R120). -/
theorem alu_of_result {a b v : Byte} {d r : Fin 8} {sel : AluSelect} {s : State} (ha : Names a d) (hb : Names b r)
    (hres : sel.result (s.reg d) (s.reg r) = .ok v) : alu sel a b s = .ok (s.setReg d v) := by
  rw [alu_of_names ha hb, hres]
  rfl

/-- One register write leaves every other register as it was (R20). -/
theorem sameRegsExcept_setReg (s : State) (d : Fin 8) (v : Byte) : SameRegsExcept s (s.setReg d v) [d] :=
  fun r hr => (s.setReg_reg d v r).trans (if_neg (by simpa using hr))

/-- A result written to a register is read back modulo 256 (R7, R23). -/
theorem setReg_narrow_toNat (s : State) (d : Fin 8) (n : Nat) : ((s.setReg d (narrow n)).reg d).toNat = n % 256 := by
  rw [State.setReg_reg, if_pos rfl, narrow_toNat]

/-- Settles O35: a completed operation is one `setReg`, and the destination's index is checked before the source's. -/
theorem aluWritesItsDestinationOnly : Obligations.AluWritesItsDestinationOnly := by
  refine ⟨fun s a b d r ha hb => ⟨?add, ?mul⟩, fun s sel a b => ⟨fun ha => ?dest, fun ha hb => ?source⟩⟩
  case add =>
    exact ⟨_, alu_of_result ha hb rfl, setReg_narrow_toNat s d _, sameRegsExcept_setReg s d _, rfl, rfl, rfl, rfl⟩
  case mul =>
    exact ⟨_, alu_of_result ha hb rfl, setReg_narrow_toNat s d _, sameRegsExcept_setReg s d _, rfl, rfl, rfl, rfl⟩
  case dest => exact alu_of_dest_ge ha sel b s
  case source =>
    obtain ⟨d, hd⟩ := (names_or_ge a).resolve_right (by omega)
    exact alu_of_source_ge hd hb sel s

/-! ### MUL and ADD -/

/-- An instruction that writes a result cut to 8 bits and advances `pc` by 3 leaves the result modulo 256, the advance being
exact because its window lies in memory (R23, R26). -/
theorem exec_narrow_frame {i : Instr} {s : State} {d : Fin 8} {n : Nat} (hmem : s.pc.toNat + 2 ≤ 255)
    (h : handler i s = .ok ((s.setReg d (narrow n)).advancePc 3)) :
    ∃ t, exec i s = .next t ∧ (t.reg d).toNat = n % 256 ∧ t.pc.toNat = s.pc.toNat + 3 ∧ SameRegsExcept s t [d] ∧
      SameMemExcept s t [] ∧ t.out = s.out ∧ t.run = s.run :=
  ⟨_, exec_of_handler_ok h, setReg_narrow_toNat s d n,
    (s.setReg d (narrow n)).advancePc_toNat 3 (by rw [s.setReg_pc]; omega),
    sameRegsExcept_setReg_advancePc s d (narrow n) 3, fun _ _ => rfl, rfl, rfl⟩

/-- Settles O29: MUL writes the product cut to 8 bits and advances by 3. -/
theorem mulKeepsLowByteOfProduct : Obligations.MulKeepsLowByteOfProduct :=
  fun s _ _ _ _ ha hb hmem => exec_narrow_frame hmem (mul_of_names ha hb s)

/-- Settles O30: ADD writes the sum cut to 8 bits and advances by 3. -/
theorem addKeepsLowByteOfSum : Obligations.AddKeepsLowByteOfSum :=
  fun s _ _ _ _ ha hb hmem => exec_narrow_frame hmem (add_of_names ha hb s)

/-! ### The select that nothing drives -/

/-- A select outside ADD and MUL raises, with the select as info, once both operands name registers (R122). -/
theorem alu_other_of_names {a b : Byte} {d r : Fin 8} (ha : Names a d) (hb : Names b r) (n : Nat) (s : State) :
    alu (.other n) a b s = .error ⟨.unsupportedAluOp, n⟩ := by
  rw [alu_of_names ha hb]
  rfl

/-- Fetch and decode raise for the window or for the opcode, never for an ALU select (R181, R182). -/
theorem fetchDecode_error_kind {s : State} {e : Raise} (h : fetchDecode s = .error e) : e.kind ≠ .unsupportedAluOp := by
  rcases fetchDecode_cases s with ⟨w, i, -, -, hf⟩ | ⟨w, -, -, hf⟩ | ⟨addr, -, -, -, hf⟩
  · simp [hf] at h
  · obtain rfl := Except.error.inj (hf.symm.trans h)
    simp
  · obtain rfl := Except.error.inj (hf.symm.trans h)
    simp

/-- An instruction raises for its register operands only, so it drives no select that the ALU does not have (R122, R184). -/
theorem handler_error_kind {i : Instr} {s : State} {e : Raise} (h : handler i s = .error e) :
    e.kind ≠ .unsupportedAluOp := by
  obtain ⟨b, -, -, rfl⟩ := handler_error h
  simp

/-- No step raises UnsupportedAluOp, whatever `pc` it starts from: not its fetch, not its instruction, and a completed
instruction has not faulted (R183). -/
theorem step_run_ne_unsupportedAluOp {s t : State} (h : step s = .next t) (info : Nat) (faultPc : Pc) :
    t.run ≠ .faulted .unsupportedAluOp info faultPc := by
  intro hfault
  obtain ⟨hrun, ⟨e, he, rfl⟩ | ⟨w, i, e, -, -, he, rfl⟩ | ⟨w, i, -, hd, hh⟩⟩ := step_cases h
  · exact fetchDecode_error_kind he (RunState.faulted.inj hfault).1
  · exact handler_error_kind he (RunState.faulted.inj hfault).1
  · rcases (completes_of_handler hd hh).run_eq_or_halted with hr | hr <;> simp [hr, hrun] at hfault

/-- Settles O25: the ALU raises for such a select, and the commit enters Faulted; no fetch and no handler does. -/
theorem unsupportedAluSelectRaisesAndIsUnreachable : Obligations.UnsupportedAluSelectRaisesAndIsUnreachable := by
  refine ⟨fun s n a b d r ha hb => ?_, fun s t info faultPc h => step_run_ne_unsupportedAluOp h info faultPc⟩
  rw [alu_other_of_names ha hb, commit_error]
  exact takesFault_enterFault s ⟨.unsupportedAluOp, n⟩

end Sys2Proof.Machine
end

section
/-! PROOFS. The stack: the two moves of SP, what PUSH and POP leave, and that a POP undoes the PUSH before it (43_stack.md). -/

namespace Sys2Proof.Machine

/-! ### The two moves of SP -/

/-- The decrement leaves every register but SP as it was (R140). -/
theorem sameRegsExcept_spDecrement (s : State) : SameRegsExcept s s.spDecrement [7] :=
  sameRegsExcept_setReg s 7 (s.sp - 1#8)

/-- The increment leaves every register but SP as it was (R140). -/
theorem sameRegsExcept_spIncrement (s : State) : SameRegsExcept s s.spIncrement [7] :=
  sameRegsExcept_setReg s 7 (s.sp + 1#8)

/-- Writing a register with the value it holds changes nothing. -/
@[simp] theorem State.setReg_self (s : State) (i : Fin 8) : s.setReg i (s.reg i) = s :=
  State.ext_fields (Vector.set_getElem_self i.isLt) rfl rfl rfl rfl

/-- Of two writes of one register the second stands. -/
@[simp] theorem State.setReg_setReg (s : State) (i : Fin 8) (v w : Byte) : (s.setReg i v).setReg i w = s.setReg i w :=
  State.ext_fields (by rw [State.setReg_x, State.setReg_x, State.setReg_x, Vector.set_set]) rfl rfl rfl rfl

/-- The increment undoes the decrement, modulo 256 (R140). -/
theorem spIncrement_spDecrement (s : State) : s.spDecrement.spIncrement = s := by
  have hsp : s.spDecrement.sp + 1#8 = s.reg 7 := by rw [s.spDecrement_sp, BitVec.sub_add_cancel, s.sp_eq_reg]
  rw [State.spIncrement, hsp, State.spDecrement, State.setReg_setReg, State.setReg_self]

/-- Settles O37: each move is one register write, of SP, and one undoes the other; the first push address by evaluation. -/
theorem stackPointerMovesByOneModulo256 : Obligations.StackPointerMovesByOneModulo256 :=
  ⟨fun s => ⟨s.spDecrement_toNat, sameRegsExcept_spDecrement s, rfl, rfl, rfl, rfl,
    s.spIncrement_toNat, sameRegsExcept_spIncrement s, rfl, rfl, rfl, rfl, spIncrement_spDecrement s⟩, by decide⟩

/-! ### PUSH -/

/-- PUSH of a register of the file is `pushed` (R141). -/
theorem exec_push_of_names {a : Byte} {r : Fin 8} (h : Names a r) (s : State) : exec (.push a) s = .next (pushed s r) :=
  exec_of_handler_ok (push_of_names h s)

/-- PUSH leaves SP as its decrement left it (R141). -/
theorem pushed_sp (s : State) (r : Fin 8) : (pushed s r).sp = s.spDecrement.sp := rfl

/-- The cell PUSH leaves at SP holds the register, as the decrement left it (R141, D14). -/
theorem pushed_cell_sp (s : State) (r : Fin 8) : (pushed s r).cell (pushed s r).sp.toNat = s.spDecrement.reg r :=
  (pushed_cell s r _).trans (if_pos rfl)

/-- After the decrement SP reads as decremented, and any other register as it was (R140). -/
theorem spDecrement_reg_eq (s : State) (r : Fin 8) :
    s.spDecrement.reg r = if r = 7 then s.spDecrement.sp else s.reg r := by
  rw [s.spDecrement_reg, s.spDecrement_sp]

/-- Settles O31: the next state is `pushed`, its advance exact because the window lies in memory. -/
theorem pushStoresBelowTheStackTop : Obligations.PushStoresBelowTheStackTop := by
  intro s a r ha hmem
  refine ⟨s.spDecrement_toNat, pushed s r, exec_push_of_names ha s, pushed_sp s r, ?_, s.advancePc_toNat 2 (by omega),
    sameRegsExcept_spDecrement s, fun addr haddr => ?_, rfl, rfl⟩
  · rw [← spDecrement_reg_eq]
    exact pushed_cell_sp s r
  · have hne : addr ≠ s.spDecrement.sp.toNat := by simpa using haddr
    rw [pushed_cell, if_neg hne]

/-! ### POP -/

/-- POP into a register of the file is `popped` (R142). -/
theorem exec_pop_of_names {a : Byte} {r : Fin 8} (h : Names a r) (s : State) : exec (.pop a) s = .next (popped s r) :=
  exec_of_handler_ok (pop_of_names h s)

/-- POP into another register than SP leaves there the byte at SP (R142). -/
theorem popped_reg_self (s : State) {r : Fin 8} (hr : r ≠ 7) : (popped s r).reg r = s.cell s.sp.toNat := by
  simp [popped, hr]

/-- POP into another register than SP increments SP (R142). -/
theorem popped_sp_of_ne (s : State) {r : Fin 8} (hr : r ≠ 7) : (popped s r).sp = s.sp + 1#8 := by
  simp [popped, hr]

/-- POP into SP leaves the byte at SP plus one: the increment reads SP as the load left it (R142, D14). -/
theorem popped_sp_of_sp (s : State) : (popped s 7).sp = s.cell s.sp.toNat + 1#8 := by
  simp [popped]

/-- POP leaves every register but its operand and SP as it was (R142). -/
theorem sameRegsExcept_popped (s : State) (r : Fin 8) : SameRegsExcept s (popped s r) [r, 7] := by
  intro j hj
  obtain ⟨hr, hsp⟩ : j ≠ r ∧ j ≠ 7 := by simpa using hj
  exact popped_reg_of_ne s hr hsp

/-- Settles O32: the next state is `popped`, its advance exact because the window lies in memory. -/
theorem popLoadsFromTheStackTop : Obligations.PopLoadsFromTheStackTop := by
  intro s a r ha hmem
  refine ⟨popped s r, exec_pop_of_names ha s, fun hr => ⟨popped_reg_self s hr, ?_⟩, ?_, s.advancePc_toNat 2 (by omega),
    sameRegsExcept_popped s r, fun _ _ => rfl, rfl, rfl⟩
  · rw [popped_sp_of_ne s hr, BitVec.toNat_add]
    rfl
  · rintro rfl
    rw [popped_sp_of_sp, BitVec.toNat_add]
    rfl

/-! ### PUSH, then POP -/

/-- POP restores SP when SP and the cell there are as PUSH of the same register left them (R143). For R7 the cell holds the
decremented SP, and POP increments the byte it loads (D14). -/
theorem popped_sp_of_pushed {s u : State} {r : Fin 8} (hsp : u.sp = s.spDecrement.sp)
    (hcell : u.cell u.sp.toNat = s.spDecrement.reg r) : (popped u r).sp = s.sp := by
  by_cases hr : r = 7
  · subst hr
    rw [popped_sp_of_sp, hcell, ← State.sp_eq_reg, s.spDecrement_sp, BitVec.sub_add_cancel]
  · rw [popped_sp_of_ne u hr, hsp, s.spDecrement_sp, BitVec.sub_add_cancel]

/-- POP restores the register when SP and the cell there are as PUSH of it left them (R143). -/
theorem popped_reg_of_pushed {s u : State} {r : Fin 8} (hsp : u.sp = s.spDecrement.sp)
    (hcell : u.cell u.sp.toNat = s.spDecrement.reg r) : (popped u r).reg r = s.reg r := by
  by_cases hr : r = 7
  · subst hr
    exact popped_sp_of_pushed hsp hcell
  · rw [popped_reg_self u hr, hcell, spDecrement_reg_eq, if_neg hr]

/-- POP right after PUSH of the same register leaves every register as before the PUSH (R143). -/
theorem popped_pushed_reg (s : State) (r j : Fin 8) : (popped (pushed s r) r).reg j = s.reg j := by
  by_cases hr : j = r
  · subst hr
    exact popped_reg_of_pushed (pushed_sp s j) (pushed_cell_sp s j)
  · by_cases hj : j = 7
    · subst hj
      exact popped_sp_of_pushed (pushed_sp s r) (pushed_cell_sp s r)
    · rw [popped_reg_of_ne _ hr hj, pushed_reg, spDecrement_reg_eq, if_neg hj]

/-- Settles O45: any state that keeps SP and the pushed cell meets what `popped_reg_of_pushed` and `popped_sp_of_pushed` ask. -/
theorem pushThenPopRestoresRegisterAndSp : Obligations.PushThenPopRestoresRegisterAndSp := by
  intro s a r ha
  refine ⟨pushed s r, exec_push_of_names ha s, pushed_sp s r, fun u hsp hcell => ?later,
    popped (pushed s r) r, exec_pop_of_names ha _, fun j _ => popped_pushed_reg s r j⟩
  case later =>
    have hsp' : u.sp = s.spDecrement.sp := hsp.trans (pushed_sp s r)
    have hcell' : u.cell u.sp.toNat = s.spDecrement.reg r := by rw [hsp, hcell, pushed_cell_sp]
    exact ⟨popped u r, exec_pop_of_names ha u, popped_reg_of_pushed hsp' hcell', popped_sp_of_pushed hsp' hcell', rfl,
      sameRegsExcept_popped u r, hcell⟩

end Sys2Proof.Machine
end

section
/-! PROOFS. CALL and RET: what each leaves, and that the RET of a balanced subroutine returns past its CALL
(44_call_return.md). -/

namespace Sys2Proof.Machine

/-! ### CALL -/

/-- CALL of a register of the file is `called` (R160). -/
theorem exec_call_of_names {a : Byte} {r : Fin 8} (h : Names a r) (s : State) : exec (.call a) s = .next (called s r) :=
  exec_of_handler_ok (call_of_names h s)

/-- The return address is exact when the window of the CALL lies in memory (R162). -/
theorem returnAddress_toNat {s : State} (hmem : s.pc.toNat + 2 ≤ 255) : (returnAddress s).toNat = s.pc.toNat + 2 := by
  rw [returnAddress, narrow_toNat, Nat.mod_eq_of_lt (by omega)]

/-- CALL leaves SP as its decrement left it (R160). -/
theorem called_sp (s : State) (r : Fin 8) : (called s r).sp = s.spDecrement.sp := rfl

/-- The cell CALL leaves at SP holds the return address (R160). -/
theorem called_cell_sp (s : State) (r : Fin 8) : (called s r).cell (called s r).sp.toNat = returnAddress s :=
  (called_cell s r _).trans (if_pos rfl)

/-- CALL jumps to the register's value, which for SP is the decremented one (R160, D14). -/
theorem called_pc_toNat (s : State) (r : Fin 8) :
    (called s r).pc.toNat = if r = 7 then s.spDecrement.sp.toNat else (s.reg r).toNat := by
  rw [called_pc, zextPc_toNat, spDecrement_reg_eq, apply_ite BitVec.toNat]

/-- Settles O33: the next state is `called`, its return address exact because the window lies in memory. -/
theorem callPushesReturnAddressAndJumps : Obligations.CallPushesReturnAddressAndJumps := by
  intro s a r ha hmem
  refine ⟨s.spDecrement_toNat, called s r, exec_call_of_names ha s, called_sp s r, ?_, called_pc_toNat s r,
    sameRegsExcept_spDecrement s, fun addr haddr => ?_, rfl, rfl⟩
  · rw [← called_sp s r, called_cell_sp, returnAddress_toNat hmem]
  · have hne : addr ≠ s.spDecrement.sp.toNat := by simpa using haddr
    rw [called_cell, if_neg hne]

/-! ### RET -/

/-- The state a RET leaves (R161). -/
def returned (s : State) : State := (s.setPc (zextPc (s.cell s.sp.toNat))).spIncrement

/-- RET is `returned`, in every state (R48, R161). -/
theorem exec_ret (s : State) : exec .ret s = .next (returned s) :=
  exec_of_handler_ok (ret_eq s)

/-- RET sets `pc` to the byte at SP (R161). -/
theorem returned_pc_toNat (s : State) : (returned s).pc.toNat = (s.cell s.sp.toNat).toNat :=
  zextPc_toNat _

/-- RET increments SP (R161). -/
theorem returned_sp (s : State) : (returned s).sp = s.sp + 1#8 :=
  State.spIncrement_sp _

/-- RET leaves every register but SP as it was (R161). -/
theorem sameRegsExcept_returned (s : State) : SameRegsExcept s (returned s) [7] :=
  sameRegsExcept_spIncrement (s.setPc _)

/-- A return to 254 or 255 is followed by the fault of a window out of memory (R81, R161). -/
theorem takesFault_returned {s : State} (htop : 254 ≤ (s.cell s.sp.toNat).toNat) (hrun : s.run = .running) :
    TakesFault (returned s) (step (returned s)) .memOutOfBounds 256 := by
  rw [← returned_pc_toNat] at htop
  refine takesFault_of_top hrun htop ?_
  rw [returned_pc_toNat]
  omega

/-- Settles O34: the next state is `returned`; the text is the one an assembler writes for RET, which is read back. -/
theorem retPopsTheReturnAddress : Obligations.RetPopsTheReturnAddress :=
  ⟨fun _ _ => rfl, rfl, parseInstr_showInstr (i := .ret) rfl, fun s =>
    ⟨returned s, exec_ret s, returned_pc_toNat s, State.spIncrement_toNat _, sameRegsExcept_returned s, fun _ _ => rfl, rfl,
      rfl, takesFault_returned⟩⟩

/-! ### CALL, then RET -/

/-- Settles O46: the RET finds the return address at SP, and its increment undoes the decrement of the CALL. -/
theorem callThenRetReturnsPastTheCall : Obligations.CallThenRetReturnsPastTheCall := by
  intro s a r ha hmem
  refine ⟨called s r, exec_call_of_names ha s, fun u hsp hcell => ⟨returned u, exec_ret u, ?_, ?_⟩⟩
  · rw [returned_pc_toNat, hsp, hcell, called_cell_sp, returnAddress_toNat hmem]
  · rw [returned_sp, hsp, called_sp, s.spDecrement_sp, BitVec.sub_add_cancel]

end Sys2Proof.Machine
end

section
/-! PROOFS. The fault conditions in their order, what a fault leaves, and the output record (60_exceptions.md). -/

namespace Sys2Proof

/-! ### The register operand that raises -/

/-- An instruction whose register operands are all of the file has none that raises (R63, R184). -/
theorem Instr.badRegister_eq_none_iff (i : Instr) : i.badRegister = none ↔ i.wellFormed = true := by
  simp [Instr.badRegister, Instr.wellFormed]

/-- The first register operand is checked first (R185). -/
theorem Instr.badRegister_of_first {i : Instr} {a : Byte} {rest : List Byte} (hi : i.registerOperands = a :: rest)
    (ha : 8 ≤ a.toNat) : i.badRegister = some a := by
  simp [Instr.badRegister, hi, isRegister, ha]

/-- The second register operand is checked once the first is one of the file (R185). -/
theorem Instr.badRegister_of_second {i : Instr} {a b : Byte} (hi : i.registerOperands = [a, b]) (ha : a.toNat ≤ 7)
    (hb : 8 ≤ b.toNat) : i.badRegister = some b := by
  simp [Instr.badRegister, hi, isRegister, hb, Nat.lt_succ_of_le ha]

/-- Each of these seven opcodes selects an instruction that uses operand `a` as its first register (R64, R65). -/
theorem decode_of_register_opcode {w : Window}
    (h : w.op ∈ [0x82#8, 0x47#8, 0xA2#8, 0xA0#8, 0x45#8, 0x46#8, 0x50#8]) :
    ∃ i rest, decode w = .instr i ∧ i.registerOperands = w.a :: rest := by
  obtain ⟨op, a, b⟩ := w
  simp only [List.mem_cons, List.not_mem_nil, or_false] at h
  rcases h with rfl | rfl | rfl | rfl | rfl | rfl | rfl <;> exact ⟨_, _, rfl, rfl⟩

/-- MUL and ADD use both operands as registers (R64, R65). -/
theorem decode_of_alu_opcode {w : Window} (h : w.op ∈ [0xA2#8, 0xA0#8]) :
    ∃ i, decode w = .instr i ∧ i.registerOperands = [w.a, w.b] := by
  obtain ⟨op, a, b⟩ := w
  simp only [List.mem_cons, List.not_mem_nil, or_false] at h
  rcases h with rfl | rfl <;> exact ⟨_, rfl, rfl⟩

end Sys2Proof

namespace Sys2Proof.Machine

/-- An instruction that completes uses registers of the file only (R184). -/
theorem badRegister_of_handler_ok {i : Instr} {s t : State} (h : handler i s = .ok t) : i.badRegister = none := by
  have one : ∀ {a : Byte} {r : Fin 8}, Names a r → [a].all isRegister = true :=
    fun ha => by simp [isRegister, ha.lt]
  have two : ∀ {a b : Byte} {ra rb : Fin 8}, Names a ra → Names b rb → [a, b].all isRegister = true :=
    fun ha hb => by simp [isRegister, ha.lt, hb.lt]
  rw [Instr.badRegister_eq_none_iff]
  rcases handler_cases h with ⟨rfl, -⟩ | ⟨a, b, r, rfl, ha, -⟩ | ⟨a, r, rfl, ha, -⟩ | ⟨a, b, ra, rb, rfl, ha, hb, -⟩ |
    ⟨a, b, ra, rb, rfl, ha, hb, -⟩ | ⟨a, r, rfl, ha, -⟩ | ⟨a, r, rfl, ha, -⟩ | ⟨a, r, rfl, ha, -⟩ | ⟨rfl, -⟩
  · rfl
  · exact one ha
  · exact one ha
  · exact two ha hb
  · exact two ha hb
  · exact one ha
  · exact one ha
  · exact one ha
  · rfl

/-- Whatever the state, an instruction raises for the first of its register operands that names no register (R184, R185). -/
theorem handler_of_badRegister {i : Instr} {b : Byte} (h : i.badRegister = some b) (s : State) :
    handler i s = .error ⟨.registerIndexOutOfRange, b.toNat⟩ := by
  cases hh : handler i s with
  | ok t => simp [badRegister_of_handler_ok hh] at h
  | error e =>
    obtain ⟨b', hb', -, rfl⟩ := handler_error hh
    obtain rfl : b' = b := Option.some.inj (hb'.symm.trans h)
    rfl

/-- Whatever the state, an instruction whose register operands are all of the file completes (R184). -/
theorem handler_of_wellFormed {i : Instr} (h : i.wellFormed = true) (s : State) : ∃ t, handler i s = .ok t := by
  cases hh : handler i s with
  | ok t => exact ⟨t, rfl⟩
  | error e =>
    obtain ⟨b, hb, -⟩ := handler_error hh
    simp [i.badRegister_eq_none_iff.mpr h] at hb

/-- An instruction with a register operand that names no register takes the fault of the first such operand (R184, R186). -/
theorem takesFault_exec_of_badRegister {i : Instr} {b : Byte} (h : i.badRegister = some b) (s : State) :
    TakesFault s (exec i s) .registerIndexOutOfRange b.toNat := by
  rw [exec_eq_commit, handler_of_badRegister h, commit_error]
  exact takesFault_enterFault s ⟨.registerIndexOutOfRange, b.toNat⟩

/-- A completed instruction leaves the run state alone, unless it is HLT (R86, R100). -/
theorem handler_run {i : Instr} {s t : State} (h : handler i s = .ok t) :
    (i = .hlt ∧ t.run = .halted) ∨ (i ≠ .hlt ∧ t.run = s.run) := by
  rcases handler_cases h with ⟨rfl, rfl⟩ | ⟨a, b, r, rfl, -, rfl⟩ | ⟨a, r, rfl, -, rfl⟩ | ⟨a, b, ra, rb, rfl, -, -, rfl⟩ |
    ⟨a, b, ra, rb, rfl, -, -, rfl⟩ | ⟨a, r, rfl, -, rfl⟩ | ⟨a, r, rfl, -, rfl⟩ | ⟨a, r, rfl, -, rfl⟩ | ⟨rfl, rfl⟩
  · exact .inl ⟨rfl, rfl⟩
  all_goals exact .inr ⟨by simp, rfl⟩

/-- Settles O19: the instruction raises for its first bad register operand, and completes when it has none. -/
theorem badRegisterOperandRaisesElseCompletes : Obligations.BadRegisterOperandRaisesElseCompletes := by
  refine ⟨fun s a b ha => ?first, fun s a b ha hb => ?second, fun s i hi => ?completes⟩
  case first =>
    have hfault : ∀ {i : Instr} {rest : List Byte}, i.registerOperands = a :: rest →
        TakesFault s (exec i s) .registerIndexOutOfRange a.toNat :=
      fun hi => takesFault_exec_of_badRegister (Instr.badRegister_of_first hi ha) s
    exact ⟨hfault rfl, hfault rfl, hfault rfl, hfault rfl, hfault rfl, hfault rfl, hfault rfl⟩
  case second =>
    have hfault : ∀ {i : Instr}, i.registerOperands = [a, b] →
        TakesFault s (exec i s) .registerIndexOutOfRange b.toNat :=
      fun hi => takesFault_exec_of_badRegister (Instr.badRegister_of_second hi ha hb) s
    exact ⟨hfault rfl, hfault rfl⟩
  case completes =>
    obtain ⟨t, ht⟩ := handler_of_wellFormed hi s
    exact ⟨t, exec_of_handler_ok ht, handler_run ht⟩

/-! ### The order of the fault conditions -/

/-- A step whose window decodes to an instruction with a bad register operand takes the fault of the first one (R184). -/
theorem step_of_badRegister {s : State} {w : Window} {i : Instr} {b : Byte} (hrun : s.run = .running) (hw : s.WindowIs w)
    (hd : decode w = .instr i) (hbad : i.badRegister = some b) :
    TakesFault s (step s) .registerIndexOutOfRange b.toNat := by
  rw [step_of_fetch_ok hrun (fetchDecode_of_windowIs hw hd)]
  exact takesFault_exec_of_badRegister hbad s

/-- Settles O20: one clause for each level of the order, from the fetch down to the ALU select. -/
theorem firstFaultInPriorityOrderIsRaised : Obligations.FirstFaultInPriorityOrderIsRaised := by
  refine ⟨fun s => takesFault_of_top, fun s a b hrun hw => ?hlt, fun s w hrun hw hop => ?illegal,
    fun s w hrun hw hop ha => ?first, fun s w hrun hw hop ha hb => ?second, fun s n a b => ⟨?dest, ?source, ?select⟩⟩
  case hlt => exact ⟨s.halt, step_hlt hrun hw.inMemory hw.op, s.halt_run⟩
  case illegal => exact step_of_illegal hrun hw ((decode_eq_illegal_iff w).mpr hop)
  case first =>
    obtain ⟨i, rest, hd, hi⟩ := decode_of_register_opcode hop
    exact step_of_badRegister hrun hw hd (Instr.badRegister_of_first hi ha)
  case second =>
    obtain ⟨i, hd, hi⟩ := decode_of_alu_opcode hop
    exact step_of_badRegister hrun hw hd (Instr.badRegister_of_second hi ha hb)
  case dest => exact fun ha => alu_of_dest_ge ha (.other n) b s
  case source =>
    intro ha hb
    obtain ⟨d, hd⟩ := (names_or_ge a).resolve_right (by omega)
    exact alu_of_source_ge hd hb (.other n) s
  case select =>
    intro ha hb
    obtain ⟨d, hd⟩ := (names_or_ge a).resolve_right (by omega)
    obtain ⟨r, hr⟩ := (names_or_ge b).resolve_right (by omega)
    exact alu_other_of_names hd hr n s

/-- Settles O21: a step that ends in Faulted has not completed its instruction, so it is a fault entry from the old state. -/
theorem faultsCommitNothingOfTheInstruction : Obligations.FaultsCommitNothingOfTheInstruction := by
  intro s t kind info faultPc hstep hfault
  obtain ⟨hrun, ⟨e, rfl, -⟩ | ⟨w, -, hc⟩⟩ := step_faults_or_completes hstep
  · obtain ⟨-, -, hpc⟩ := RunState.faulted.inj hfault
    exact ⟨hpc.symm, rfl, rfl, rfl, rfl⟩
  · rcases hc.run_eq_or_halted with hr | hr <;> simp [hr, hrun] at hfault

/-! ### The output record -/

/-- What completes from a window is what the handler of its instruction leaves: the converse of `completes_of_handler`. -/
theorem Completes.handler_ok {s t : State} {w : Window} (h : Completes s w t) :
    ∃ i, decode w = .instr i ∧ handler i s = .ok t := by
  obtain ⟨op, a, b⟩ := w
  cases h with
  | hlt hop => subst hop; exact ⟨.hlt, rfl, rfl⟩
  | ldi hop ha => subst hop; exact ⟨.ldi a b, rfl, ldi_of_names ha b s⟩
  | prn hop ha => subst hop; exact ⟨.prn a, rfl, prn_of_names ha s⟩
  | mul hop ha hb => subst hop; exact ⟨.mul a b, rfl, mul_of_names ha hb s⟩
  | add hop ha hb => subst hop; exact ⟨.add a b, rfl, add_of_names ha hb s⟩
  | push hop ha => subst hop; exact ⟨.push a, rfl, push_of_names ha s⟩
  | pop hop ha => subst hop; exact ⟨.pop a, rfl, pop_of_names ha s⟩
  | call hop ha => subst hop; exact ⟨.call a, rfl, call_of_names ha s⟩
  | ret hop => subst hop; exact ⟨.ret, rfl, ret_eq s⟩

/-- A Running Machine takes the step that completes its window's instruction (R80, R83). -/
theorem step_of_completes {s t : State} {w : Window} (hrun : s.run = .running) (hw : s.WindowIs w)
    (h : Completes s w t) : step s = .next t := by
  obtain ⟨i, hd, hi⟩ := h.handler_ok
  exact step_of_handler_ok hrun hw hd hi

/-- A completed instruction adds nothing to the record, unless it is PRN of a register of the file (R102, R191). -/
theorem Completes.out_cases {s t : State} {w : Window} (h : Completes s w t) :
    t.out = s.out ∨ ∃ r, w.op = 0x47#8 ∧ Names w.a r := by
  cases h with
  | prn hop ha => exact .inr ⟨_, hop, ha⟩
  | hlt | ldi | mul | add | push | pop | call | ret => exact .inl rfl

/-- Settles O42: with such a window the step completes PRN, and without one it faults or completes another instruction. -/
theorem outputEventsComeFromPrnOnly : Obligations.OutputEventsComeFromPrnOnly := by
  intro s t hstep
  obtain ⟨hrun, hcases⟩ := step_faults_or_completes hstep
  by_cases hprn : ∃ w r, s.WindowIs w ∧ w.op = 0x47#8 ∧ Names w.a r
  · obtain ⟨w, r, hw, hop, ha⟩ := hprn
    obtain rfl : (s.emit (s.reg r)).advancePc 2 = t := by
      simpa [step_of_completes hrun hw (.prn hop ha)] using hstep
    exact .inl ⟨w, r, hw, hop, ha, rfl⟩
  · refine .inr ⟨?_, fun w r hw hop ha => hprn ⟨w, r, hw, hop, ha⟩⟩
    obtain ⟨e, rfl, -⟩ | ⟨w, hw, hc⟩ := hcases
    · exact s.enterFault_out e
    · rcases hc.out_cases with hout | ⟨r, hop, ha⟩
      · exact hout
      · exact absurd ⟨w, r, hw, hop, ha⟩ hprn

/-- With another record, the same instruction completes in the same state and appends the same events (R32, R191). -/
theorem Completes.with_out {s t : State} {w : Window} (h : Completes s w t) :
    ∃ new, t.out = s.out ++ new ∧
      ∀ received, Completes { s with out := received } w { t with out := received ++ new } := by
  have silent : t.out = s.out → (∀ received, Completes { s with out := received } w { t with out := received }) →
      ∃ new, t.out = s.out ++ new ∧
        ∀ received, Completes { s with out := received } w { t with out := received ++ new } :=
    fun hout hc => ⟨[], by simpa using hout, by simpa using hc⟩
  cases h with
  | hlt hop => exact silent rfl fun _ => .hlt hop
  | ldi hop ha => exact silent rfl fun _ => .ldi hop ha
  | @prn r hop ha => exact ⟨[s.reg r], rfl, fun _ => .prn hop ha⟩
  | mul hop ha hb => exact silent rfl fun _ => .mul hop ha hb
  | add hop ha hb => exact silent rfl fun _ => .add hop ha hb
  | push hop ha => exact silent rfl fun _ => .push hop ha
  | pop hop ha => exact silent rfl fun _ => .pop hop ha
  | call hop ha => exact silent rfl fun _ => .call hop ha
  | ret hop => exact silent rfl fun _ => .ret hop

/-- The record is no part of the window (R31, R32). -/
theorem State.WindowIs.with_out {s : State} {w : Window} (hw : s.WindowIs w) (received : List Byte) :
    State.WindowIs { s with out := received } w :=
  ⟨hw.inMemory, hw.op, hw.a, hw.b⟩

/-- The record is no part of what is fetched and decoded (R31, R32). -/
theorem fetchDecode_with_out (s : State) (received : List Byte) :
    fetchDecode { s with out := received } = fetchDecode s := rfl

/-- An instruction that raises, raises the same with another record: its operand bytes alone decide (R32, R184). -/
theorem handler_error_with_out {i : Instr} {s : State} {e : Raise} (h : handler i s = .error e) (received : List Byte) :
    handler i { s with out := received } = .error e := by
  obtain ⟨b, hbad, -, rfl⟩ := handler_error h
  exact handler_of_badRegister hbad _

/-- A Running Machine whose window's instruction raises enters Faulted for that reason (R186). -/
theorem step_of_handler_error {s : State} {w : Window} {i : Instr} {e : Raise} (hrun : s.run = .running)
    (hw : s.WindowIs w) (hd : decode w = .instr i) (h : handler i s = .error e) : step s = .next (s.enterFault e) := by
  rw [step_of_fetch_ok hrun (fetchDecode_of_windowIs hw hd), exec_eq_commit, h, commit_error]

/-- A step that enters the same fault with any other record delivers the same new events: none (R186, R191). -/
theorem exists_new_of_enterFault {s : State} {e : Raise}
    (h : ∀ received, step { s with out := received } = .next { s.enterFault e with out := received })
    (received : List Byte) :
    ∃ new, (s.enterFault e).out = s.out ++ new ∧
      step { s with out := received } = .next { s.enterFault e with out := received ++ new } :=
  ⟨[], by simp, by simpa using h received⟩

/-- Settles O43: with another record the step meets the same fault, or completes the same instruction. -/
theorem outputRecordNeverInfluencesAStep : Obligations.OutputRecordNeverInfluencesAStep := by
  intro s t received hstep
  obtain ⟨hrun, ⟨e, he, rfl⟩ | ⟨w, i, e, hw, hd, he, rfl⟩ | ⟨w, i, hw, hd, hh⟩⟩ := step_cases hstep
  · exact exists_new_of_enterFault
      (fun r => step_of_fetch_error hrun ((fetchDecode_with_out s r).trans he)) received
  · exact exists_new_of_enterFault
      (fun r => step_of_handler_error hrun (hw.with_out r) hd (handler_error_with_out he r)) received
  · obtain ⟨new, hout, hc⟩ := (completes_of_handler hd hh).with_out
    exact ⟨new, hout, step_of_completes hrun (hw.with_out received) (hc received)⟩

end Sys2Proof.Machine
end

section
/-! PROOFS. The host's transactions and its two read-only ports (60_exceptions.md R195 to R197). -/

namespace Sys2Proof.Machine

/-! ### The transactions -/

/-- In Idle, `run` changes the run state and nothing else (R195). -/
theorem transact_run_of_idle {s : State} (hidle : s.run = .idle) : transact .run s = s.setRun .running :=
  if_pos hidle

/-- In Idle, `load` writes from address 0 (R195, R196). -/
theorem transact_load_of_idle {s : State} (hidle : s.run = .idle) (bytes : List Byte) :
    transact (.load bytes) s = loadFrom 0 bytes s :=
  if_pos hidle

/-- Settles O3: in Idle `run` is one change of the run state, outside it only `reset` has an effect. -/
theorem transactionsAreAcceptedByRunState : Obligations.TransactionsAreAcceptedByRunState := by
  refine fun s => ⟨fun hidle => ?_, fun hs => ⟨transact_of_not_idle hs (by simp), fun bytes => ?_⟩, rfl⟩
  · rw [transact_run_of_idle hidle]
    exact ⟨rfl, rfl, rfl, rfl, rfl⟩
  · exact transact_of_not_idle hs (by simp)

/-- Settles O2: `loadFrom_spec` for a load that fits, `loadFrom_long` for one that does not, which leaves Idle. -/
theorem loadWritesProgramFromAddressZero : Obligations.LoadWritesProgramFromAddressZero := by
  intro s bytes hidle
  rw [transact_load_of_idle hidle]
  refine ⟨fun hfits => ?fits, fun hlong => ?long⟩
  case fits =>
    obtain ⟨hcell, hx, hpc, hrun, hout⟩ := loadFrom_spec bytes 0 s (by omega)
    refine ⟨fun i hi => ?_, fun addr haddr => ?_, hx, hpc, hrun.trans hidle, hout⟩
    · simp [hcell, hi]
    · simp [hcell, haddr]
  case long =>
    obtain ⟨hx, hpc, hrun, hout⟩ := loadFrom_long bytes 0 s (by omega) (by omega)
    exact ⟨hrun, hx, hpc, hout, transact_of_not_idle (by simp [hrun]) (by simp)⟩

/-- A load from address 0 into an Idle machine keeps the invariant: it ends in Idle, or in Faulted at address 256 (R196, D8). -/
theorem State.Inv.loadFrom_zero {s : State} (hs : s.Inv) (hidle : s.run = .idle) (bytes : List Byte) :
    (loadFrom 0 bytes s).Inv := by
  have hwf := loadFrom_wf bytes 0 s hs.memory
  by_cases hfits : bytes.length ≤ 256
  · obtain ⟨-, -, hpc, hrun, hout⟩ := loadFrom_spec bytes 0 s (by omega)
    exact ⟨hwf, hpc ▸ hs.pcBound, by simp [State.runLegal, hrun, hidle], fun _ => hout.trans (hs.idleSilent hidle)⟩
  · obtain ⟨-, hpc, hrun, -⟩ := loadFrom_long bytes 0 s (by omega) (by omega)
    exact ⟨hwf, hpc ▸ hs.pcBound, by simp [State.runLegal, hrun, hpc, FaultKind.legalInfo], fun h => by simp [hrun] at h⟩

/-- Starting the engine keeps the invariant, which asks nothing of Running (R195). -/
theorem State.Inv.setRun_running {s : State} (hs : s.Inv) : (s.setRun .running).Inv where
  memory := hs.memory
  pcBound := hs.pcBound
  runLegal := trivial
  idleSilent := fun h => by simp at h

/-- Settles O51: `reset` constructs the Machine anew; in Idle `load` and `run` keep the invariant, elsewhere they do nothing. -/
theorem everyTransactionKeepsTheInvariant : Obligations.EveryTransactionKeepsTheInvariant := by
  intro s tr hs
  by_cases hreset : tr = .reset
  · subst hreset
    exact State.constructed_inv Config.spInit
  by_cases hidle : s.run = .idle
  · cases tr with
    | reset => exact absurd rfl hreset
    | load bytes => exact transact_load_of_idle hidle bytes ▸ hs.loadFrom_zero hidle bytes
    | run => exact transact_run_of_idle hidle ▸ hs.setRun_running
  · rwa [transact_of_not_idle hidle hreset]

/-! ### The trace and status ports -/

/-- The trace port shows a byte of memory (R197). -/
theorem traceByte_of_le {addr : Nat} (h : addr ≤ 255) (s : State) : traceByte s addr = some (s.cell addr) :=
  if_pos (Nat.lt_succ_of_le h)

/-- Above address 255 the trace port shows the byte as absent (R197, D9). -/
theorem traceByte_of_gt {addr : Nat} (h : 255 < addr) (s : State) : traceByte s addr = none :=
  if_neg (Nat.not_lt.mpr h)

/-- Settles O7: each of the three bytes is shown or absent by its own address. -/
theorem traceShowsNextBytesOrAbsent : Obligations.TraceShowsNextBytesOrAbsent := by
  refine fun s => ⟨rfl, fun r => rfl, fun h => ?_, fun h => ?_, fun h => ?_, fun h => ?_, fun h => ?_, fun h => ?_⟩
  · exact traceByte_of_le h s
  · exact traceByte_of_gt h s
  · exact traceByte_of_le (Nat.succ_le_succ h) s
  · exact traceByte_of_gt (Nat.succ_lt_succ h) s
  · exact traceByte_of_le (Nat.add_le_add_right h 2) s
  · exact traceByte_of_gt (Nat.add_lt_add_right h 2) s

/-- In Faulted the status port shows the fault's code, info and address (R180, R195). -/
theorem hostStatus_of_faulted {s : State} {kind : FaultKind} {info : Nat} {faultPc : Pc}
    (h : s.run = .faulted kind info faultPc) : hostStatus s = ⟨.faulted, kind.code, some info, some faultPc⟩ := by
  simp [hostStatus, h]

/-- Settles O8: one row of the status port per run state, and one code per fault kind. -/
theorem statusReportsRunStateAndFaultCode : Obligations.StatusReportsRunStateAndFaultCode := by
  refine ⟨fun s => ⟨fun h => ?_, fun h => ?_, fun h => ?_⟩, fun s kind info faultPc h => ?_⟩
  · simp [hostStatus, h]
  · simp [hostStatus, h]
  · simp [hostStatus, h]
  · refine ⟨kind.code, hostStatus_of_faulted h, ?_, ?_, ?_, ?_⟩ <;> rintro rfl <;> rfl

end Sys2Proof.Machine
end

section
/-! PROOFS. What a boot leads to: the first window at the reset vector, the two ways a run cannot start, and the steps of a
legal program (70_reset_and_hazards.md). -/

namespace Sys2Proof.Machine

/-! ### A step of a legal program -/

/-- A completed instruction of a Running Machine has not faulted (R86). -/
theorem isFaulted_of_handler {i : Instr} {s t : State} (hrun : s.run = .running) (h : handler i s = .ok t) :
    t.isFaulted = false := by
  rcases handler_run h with ⟨-, hr⟩ | ⟨-, hr⟩ <;> simp [State.isFaulted, hr, hrun]

/-- A step that does not end in Faulted found a legal program: it completed the instruction of its window, which used
registers of the file only (R217). -/
theorem canComplete_of_step {s t : State} (h : step s = .next t) (hok : t.isFaulted = false) : s.CanComplete := by
  obtain ⟨-, ⟨e, -, rfl⟩ | ⟨w, i, e, -, -, -, rfl⟩ | ⟨w, i, hw, hd, hh⟩⟩ := step_cases h
  · simp at hok
  · simp at hok
  · exact ⟨w, i, hw, hd, i.badRegister_eq_none_iff.mp (badRegister_of_handler_ok hh)⟩

/-- A Running Machine with a legal program takes a step without a fault (R217). -/
theorem step_of_canComplete {s : State} (hrun : s.run = .running) (h : s.CanComplete) :
    ∃ t, step s = .next t ∧ t.isFaulted = false := by
  obtain ⟨w, i, hw, hd, hi⟩ := h
  obtain ⟨t, ht⟩ := handler_of_wellFormed hi s
  exact ⟨t, step_of_handler_ok hrun hw hd ht, isFaulted_of_handler hrun ht⟩

/-- Settles O23: a step without a fault is one that completes, and an instruction completes exactly when it is well-formed. -/
theorem stepCompletesExactlyWhenProgramIsLegal : Obligations.StepCompletesExactlyWhenProgramIsLegal :=
  fun _ hrun => ⟨fun ⟨_, hstep, hok⟩ => canComplete_of_step hstep hok, step_of_canComplete hrun⟩

/-! ### The boot of a program that fits in memory -/

/-- A program that fits in memory is loaded in Idle, so `run` starts the engine (R195, R213). -/
theorem boot_of_fits {bytes : List Byte} (h : bytes.length ≤ 256) (s : State) :
    boot bytes s = (loadFrom 0 bytes State.reset).setRun .running := by
  obtain ⟨-, -, -, hrun, -⟩ := loadFrom_spec bytes 0 State.reset (by omega)
  exact transact_run_of_idle hrun

theorem boot_run {bytes : List Byte} (h : bytes.length ≤ 256) (s : State) : (boot bytes s).run = .running := by
  rw [boot_of_fits h, State.setRun_run]

/-- A boot leaves `pc` at the reset vector (R211). -/
theorem boot_pc {bytes : List Byte} (h : bytes.length ≤ 256) (s : State) : (boot bytes s).pc = 0#9 := by
  obtain ⟨-, -, hpc, -, -⟩ := loadFrom_spec bytes 0 State.reset (by omega)
  rw [boot_of_fits h, State.setRun_pc, hpc]
  rfl

/-- The window at the reset vector is the program's first bytes (R60, R211). -/
theorem boot_windowIs_first {bytes : List Byte} (h : bytes.length ≤ 256) (s : State) :
    (boot bytes s).WindowIs (Window.ofBytes bytes) := by
  have hw := boot_windowIs h s (addr := 0) (by omega)
  rwa [← boot_pc h s] at hw

/-- Settles O4: the window at the reset vector lies in memory, so the fetch reads it. -/
theorem bootFetchesFirstWindowAtResetVector : Obligations.BootFetchesFirstWindowAtResetVector :=
  fun s _ h => ⟨boot_pc h s, boot_run h s, fetchWindow_of_windowIs (boot_windowIs_first h s)⟩

/-! ### The run without a program -/

/-- A `run` right after reset is the boot of the empty program (R213, R214). -/
theorem run_reset_eq_boot_nil (s : State) : transact .run (transact .reset s) = boot [] s := rfl

/-- The empty program faults at its first window, whose opcode is the 0x00 of an unwritten cell (R34, R67, R214). -/
theorem takesFault_boot_nil (s : State) : TakesFault (boot [] s) (step (boot [] s)) .illegalInstruction 0 :=
  step_of_illegal (boot_run (bytes := []) (Nat.zero_le 256) s) (boot_windowIs_first (bytes := []) (Nat.zero_le 256) s) rfl

/-- After reset, a load of more than 256 bytes leaves the Machine in Faulted, at the reset vector (R196, D8). -/
theorem load_reset_long_run {bytes : List Byte} (h : 256 < bytes.length) (s : State) :
    (transact (.load bytes) (transact .reset s)).run = .faulted .memOutOfBounds 256 0#9 := by
  obtain ⟨-, -, hrun, -⟩ := loadFrom_long bytes 0 State.reset (by omega) (by omega)
  exact hrun

/-- Settles O5: the run without a load is the boot of the empty program, and an overlong load leaves Idle, where alone `run`
is accepted. -/
theorem runWithoutProgramStopsAtOnce : Obligations.RunWithoutProgramStopsAtOnce := by
  intro s
  rw [run_reset_eq_boot_nil]
  refine ⟨takesFault_boot_nil s, boot_pc (bytes := []) (Nat.zero_le 256) s, fun bytes hlong => ?_⟩
  have hfault := load_reset_long_run hlong s
  have hrefused : transact .run (transact (.load bytes) (transact .reset s)) =
      transact (.load bytes) (transact .reset s) := transact_of_not_idle (by simp [hfault]) (by simp)
  have hboot : (boot bytes s).run = (transact (.load bytes) (transact .reset s)).run := congrArg State.run hrefused
  exact ⟨hfault, hrefused, hboot.trans hfault⟩

end Sys2Proof.Machine
end
